-- ==== Sys2Proof/Word.lean ====
section
/-! DEFINITION. The two word types of the block: the 64-bit operand (R5) and the 8-bit character (R6). -/

namespace Sys2Proof

/-- A 64-bit operand or `raw` value; bit 63 is the most significant (R5, R9, R21). -/
abbrev Word := BitVec 64

/-- One output character, `CHAR_W = 8` bits (R6, decision D4). -/
abbrev Byte := BitVec 8

end Sys2Proof
end

