-- ==== Sys2Proof/Config.lean ====
section
/-! DEFINITION. The elaboration-time parameters of one instance of the block (00_scope R5 to R8), with the spec's default values. -/

namespace Sys2Proof

/-- The four OPEN parameters, fixed when the block is instantiated (R19).  Each instance carries its own; no step
changes them (R25). -/
structure Config where
  /-- Code of `'0'` (R7, decision D5). -/
  codeZero : Byte
  /-- Code of `'1'` (R7, decision D5). -/
  codeOne : Byte
  /-- Whether output position 64 exists (R8, decision D6). -/
  termPresent : Bool
  /-- Code of the terminator (R8, decision D7). -/
  termCode : Byte
  deriving DecidableEq, Repr

/-- The defaults of the port form: ASCII digits, no terminator (R7, R8).
PRESUMED: the codes are the spec's own default from general knowledge (log 2). -/
def Config.portDefault : Config :=
  { codeZero := 0x30#8, codeOne := 0x31#8, termPresent := false, termCode := 0x00#8 }

/-- The defaults of the harness's 65-byte buffer: the same codes, with the terminator 0x00 (R8, R36). -/
def Config.harnessDefault : Config := { Config.portDefault with termPresent := true }

end Sys2Proof
end

