-- ==== Sys2Proof/Syntax.lean ====
section
/-! DEFINITION. The instruction set: one constructor, for the one row of the opcode table (R2, R49). -/

namespace Sys2Proof

/-- The one operation of the block (R2). -/
inductive Instr where
  /-- `ENCODE value`: all 64 bits of the request are the operand (R43, R70). -/
  | encode (value : Word)
  deriving DecidableEq, Repr

end Sys2Proof
end

