-- ==== Sys2Proof/WellFormed.lean ====
section
/-! DEFINITION. Which instructions are well formed (all of them, R50) and which configurations are admissible (R7, R8). -/

namespace Sys2Proof

/-- Every one of the 2^64 operands is legal: there is nothing to check (R50). -/
def Instr.wellFormed : Instr → Bool
  | .encode _ => true

/-- The two digit codes differ (R7). -/
def Config.digitsDiffer (c : Config) : Bool := c.codeZero != c.codeOne

/-- The terminator's code is no digit's code (R8).
DESIGN CHOICE: checked whether or not the instance has a terminator (log 14). -/
def Config.terminatorDiffers (c : Config) : Bool := c.termCode != c.codeZero && c.termCode != c.codeOne

/-- An admissible configuration (R14: "every admissible configuration (rule R7, rule R8)"). -/
def Config.admissible (c : Config) : Bool := c.digitsDiffer && c.terminatorDiffers

end Sys2Proof
end

