-- ==== Sys2Proof/Decode.lean ====
section
/-! DEFINITION. From the wires of a request to the instruction and back (30_encoding R43 to R51).
A request is a list of bits whose entry number i is the wire `value_i[i]`, the operand's logical bit i (R9, R21, R29).
DESIGN CHOICE: the list form and the names of the two rejections (log 15). -/

namespace Sys2Proof

/-- A row of the opcode map: `w` selects it when `w & mask == match` (R49). -/
structure OpcodeRow where
  mask : Word
  matchBits : Word
  deriving DecidableEq, Repr

/-- The map's one row, whose opcode field has width zero (R43, R49). -/
def encodeRow : OpcodeRow := { mask := 0x0000000000000000#64, matchBits := 0x0000000000000000#64 }

/-- Whether a word selects a row (R49). -/
def OpcodeRow.selects (r : OpcodeRow) (w : Word) : Bool := w &&& r.mask == r.matchBits

/-- Why a list of wires is no request: there is one request length, 64 (R43, R51). -/
inductive Reject where
  /-- Fewer than 64 wires: no support for a shorter format (R51). -/
  | tooFewWires (n : Nat)
  /-- More than 64 wires: no support for a longer format (R51). -/
  | tooManyWires (n : Nat)
  deriving DecidableEq, Repr

/-- The unsigned integer that a list of wires carries: the sum of `v[i] * 2^i` (R9). -/
def wiresToNat : List Bool → Nat
  | [] => 0
  | b :: bs => b.toNat + 2 * wiresToNat bs

/-- The wires `value_i[0]` to `value_i[63]` of a word (R21). -/
def wiresOf (w : Word) : List Bool := (List.range 64).map (fun i => w.getLsbD i)

/-- The decoder of a 64-bit word: "the constant function returning ENCODE with `value = w`" (R49).  It never rejects (R50). -/
def decodeWord (w : Word) : Instr := .encode w

/-- The decoder of a request, total on any list of wires; a list of another length is rejected by name (R43, R51). -/
def decode (wires : List Bool) : Except Reject Instr :=
  if wires.length < 64 then .error (.tooFewWires wires.length)
  else if 64 < wires.length then .error (.tooManyWires wires.length)
  else .ok (decodeWord (BitVec.ofNat 64 (wiresToNat wires)))

/-- The encoder: the one 64-bit word of a request is its operand (R43, R45). -/
def encodeWord : Instr → Word
  | .encode value => value

/-- The 64 wires of an instruction's request (R43). -/
def encode (i : Instr) : List Bool := wiresOf (encodeWord i)

/-- The word of a table row given by its low `nbits` bits, the bits above them 0. -/
def tableWord (nbits w : Nat) : Word := BitVec.ofNat 64 (w % 2 ^ nbits)

/-- What the decoder reads from the bits of a table row.  Bit i of `w` is logical bit i of the word (R9), and the word
is laid out on the 64 wires of the port (R21). -/
def decodeTableWord (nbits w : Nat) : Option Instr :=
  if 64 < nbits then none else (decode (wiresOf (tableWord nbits w))).toOption

end Sys2Proof
end

