-- ==== Sys2Proof/Machine/State.lean ====
section
/-! DEFINITION. What a step of the model sees and changes.
The block itself has NO state (R15, R24): its state type is the unit type.  The fields below are the two ports, the
elaboration-time parameters, the host's buffers and memory, and the schedule of independent invocations; they stand
here because the host's `step` takes no other argument (log 1, log 2). -/

namespace Sys2Proof.Machine

/-- Bytes by address, as plain data: addresses strictly rising (`Memory.wf`), an unlisted address holds no known byte. -/
abbrev Memory := List Host.Cell

/-- A caller's buffer: `size` bytes from `base` upward (R36, R94). -/
structure Buffer where
  base : Nat
  size : Nat
  deriving DecidableEq, Repr

/-- One instance of the block, with what stands on its ports (section 2 of 10_state.md). -/
structure Instance where
  /-- The parameters it was elaborated with (R19, R25). -/
  config : Config
  /-- `value_i` (R21).  `none`: the 64 wires do not carry a 0/1 pattern, which is outside the spec's domain (decision D13). -/
  valueI : Option Word
  /-- The output space, which is what `out_o` carries (R22, R27): cell k is output position k.  A position that is not
  listed is unspecified: R91 for an undriven operand, R93 while the output settles (log 6). -/
  out : Memory
  /-- The buffer of a buffer-form invocation in flight (R36); `none` in the port form. -/
  buffer : Option Buffer
  deriving DecidableEq, Repr

/-- The block has no fault of any kind (R71, R79, decision D23): no step can answer one, and the type says so. -/
inductive Fault
  deriving DecidableEq, Repr

/-- Why a step has no meaning.  All but the first are the host's breaches of its duties at the boundary (R84, D23). -/
inductive Refusal where
  /-- Raised by no arm: every instruction has its meaning. Safe. -/
  | notModelled (mnemonic : String)
  /-- Raised by the fetch of an operand from a port that carries no 0/1 pattern (R21, D13, U8 `refuse`). Safe. -/
  | operandUndriven
  /-- Raised by a buffer-form ENCODE whose buffer is shorter than L bytes (R94, U2 `refuse`). Safe. -/
  | bufferTooShort
  /-- Raised by a buffer-form ENCODE whose buffer overlaps that of another invocation in flight (R95, D18, U3 `refuse`). Safe. -/
  | sharedBuffer
  deriving DecidableEq, Repr

/-- The instances and the memory their callers' buffers lie in. -/
structure State where
  /-- The instance whose invocation the next step takes (R13, log 8). -/
  current : Instance
  /-- The other instances with an invocation in flight, in the order in which their steps are taken (R39, R86). -/
  waiting : List Instance
  /-- The instances with no invocation in flight (R86). -/
  idle : List Instance
  /-- The host's byte memory, written only by buffer-form invocations (R36).  Not the block's. -/
  mem : Memory
  deriving DecidableEq, Repr

/-- An instance nobody has driven yet: no register, no reset value (R26, R91). -/
def Instance.reset : Instance :=
  { config := Config.portDefault, valueI := none, out := [], buffer := none }

/-- The machine after reset.  The spec gives no reset value because it gives no state (R26, R90, R91).
DESIGN CHOICE: one instance with the port form's defaults, its operand port not driven (log 2, log 3). -/
def State.reset : State := { current := Instance.reset, waiting := [], idle := [], mem := [] }

end Sys2Proof.Machine
end

