-- ==== Sys2Proof/Machine/Flags.lean ====
section
/-! DEFINITION. The one condition the block computes, the test of one operand bit (R61).
There is no flag, condition code or status output (R18), so no flag computation stands here. -/

namespace Sys2Proof.Machine

/-- `bit(raw, i) = 1 if (raw & (1 << i)) != 0 else 0`, with a mask 64 bits wide (R61, R97). -/
def bitTest (raw : Word) (i : Nat) : Bool := raw &&& (1#64 <<< i) != 0#64

end Sys2Proof.Machine
end

