-- ==== Sys2Proof/Machine/Operands.lean ====
section
/-! DEFINITION. The operand and its stage EXTRACT (40_extract.md), with the documentary fields of format OP64 (R44). -/

namespace Sys2Proof.Machine

/-- Stage EXTRACT: `raw <- value_i`, bit for bit, no numeric conversion (R45, R54, R55). -/
def extract (value : Word) : Word := value

/-- Field `sign`, bit 63 (R44).  Documentary: the block does not decode fields. -/
def signField (raw : Word) : BitVec 1 := raw.extractLsb' 63 1

/-- Field `exponent`, bits 62:52 (R44).  Documentary. -/
def exponentField (raw : Word) : BitVec 11 := raw.extractLsb' 52 11

/-- Field `mantissa`, bits 51:0 (R44).  Documentary. -/
def mantissaField (raw : Word) : BitVec 52 := raw.extractLsb' 0 52

/-- Labels of operands (R60). -/
inductive ValueClass where
  | zero
  | subnormal
  | normal
  | infinite
  | nan
  deriving DecidableEq, Repr

/-- The class of a pattern.  The block does not compute it and no meaning uses it (R56, R60).
PRESUMED: the boundaries at exponent 2047 are the spec's general knowledge (log 17). -/
def valueClass (raw : Word) : ValueClass :=
  if exponentField raw = 0#11 then
    if mantissaField raw = 0#52 then .zero else .subnormal
  else if exponentField raw = 2047#11 then
    if mantissaField raw = 0#52 then .infinite else .nan
  else .normal

end Sys2Proof.Machine
end

