-- ==== Sys2Proof/Machine/Ops.lean ====
section
/-! DEFINITION. The named operations over memory, the output space and the ports.
There is no exception to take and none to return from (R79, R82, R83), so no such operation stands here. -/

namespace Sys2Proof.Machine

/-! ### Memory: the output space (R27) and the host's byte memory (R36) -/

/-- The canonical form: addresses strictly rising. -/
abbrev Memory.wf (m : Memory) : Prop := List.Pairwise (fun p q => p < q) (m.map Prod.fst)

/-- The byte at an address; `none` where no byte is known: an output position that is unspecified (R91, R93), a byte of
the host's memory that nothing has written ("whatever the caller left there", R91; log 10). -/
def Memory.read : Memory → Nat → Option Byte
  | [], _ => none
  | (a, b) :: m, x => if x = a then some b else Memory.read m x

/-- `MemWrite(x, 1, c)` (R11), the block's only store: one character wide (R68). -/
def Memory.write : Memory → Nat → Byte → Memory
  | [], x, c => [(x, c)]
  | (a, b) :: m, x, c =>
    if x < a then (x, c) :: (a, b) :: m
    else if x = a then (x, c) :: m
    else (a, b) :: Memory.write m x c

/-- Characters stored at consecutive positions from `base` upward: position `base + k` gets character k (R36, R68). -/
def storeChars : Nat → List Byte → Memory → Memory
  | _, [], m => m
  | base, c :: cs, m => storeChars (base + 1) cs (Memory.write m base c)

/-- The `n` bytes from `base` upward, when all of them are known: how a host samples the output or its buffer (R35). -/
def readChars (m : Memory) : Nat → Nat → Option (List Byte)
  | _, 0 => some []
  | base, n + 1 =>
    match Memory.read m base, readChars m (base + 1) n with
    | some c, some cs => some (c :: cs)
    | _, _ => none

/-! ### Stage RENDER (41_render.md) -/

/-- `L`, the number of output positions: `64 + (TERM_PRESENT ? 1 : 0)` (R8). -/
def positions (c : Config) : Nat := 64 + if c.termPresent then 1 else 0

/-- Lane k of the renderer: the character of operand bit `63 - k` (R62). -/
def laneCode (c : Config) (raw : Word) (k : Nat) : Byte :=
  if bitTest raw (63 - k) then c.codeOne else c.codeZero

/-- The 64 lanes, position 0 first (R62, R63). -/
def render (c : Config) (raw : Word) : List Byte := (List.range 64).map (laneCode c raw)

/-- The terminator lane: a constant, present only when `TERM_PRESENT` (R66). -/
def terminatorLane (c : Config) : List Byte := if c.termPresent then [c.termCode] else []

/-- All `L` output characters of one operand: EXTRACT, then RENDER, then the terminator (R70). -/
def outputChars (c : Config) (value : Word) : List Byte := render c (extract value) ++ terminatorLane c

/-! ### The ports -/

/-- What `out_o` carries while no output is settled: nothing but the terminator, "the constant `TERM_CODE` at all times
when `TERM_PRESENT`" (R91). -/
def unsettledOut (c : Config) : Memory := storeChars 64 (terminatorLane c) []

/-- The characters as the unsigned integer that the flat bus carries: the sum of `buf[k] * 2^(8k)` (R30). -/
def packBus : List Byte → Nat
  | [] => 0
  | c :: cs => c.toNat + 2 ^ 8 * packBus cs

/-- The bus value `out_o`, `8L` bits, once all `L` positions are settled (R22, R30; log 13). -/
def Instance.outBus (a : Instance) : Option (BitVec (8 * positions a.config)) :=
  (readChars a.out 0 (positions a.config)).map (fun cs => BitVec.ofNat _ (packBus cs))

/-- A new pattern on `value_i` (R21, R92).  The digits are unspecified until the invocation's step: the input-stability
hazard (R93; log 6). -/
def Instance.drive (a : Instance) (v : Word) : Instance :=
  { a with valueI := some v, out := unsettledOut a.config }

/-- `value_i` no longer driven, on an instance with no call in flight: the spec then says nothing of the digits (R26, R91,
D13), and there is no operand to make an invocation with. -/
def Instance.undrive (a : Instance) : Instance :=
  { a with valueI := none, out := unsettledOut a.config }

/-- The end of an invocation: every output position is written, and the invocation is over (R13, R32). -/
def Instance.deliver (a : Instance) (chars : List Byte) : Instance :=
  { a with out := storeChars 0 chars a.out, buffer := none }

/-- The document's sequential rendering: the digit positions `ks` written one after the other, in that order (R63, D19).
No meaning uses it: it states that the order of the lanes is unobservable. -/
def writeLanes (c : Config) (raw : Word) (ks : List Nat) (m : Memory) : Memory :=
  ks.foldl (fun m k => Memory.write m k (laneCode c raw k)) m

/-! ### Buffers and the schedule -/

/-- Two buffers share a byte (R95).  DESIGN CHOICE: the whole buffers as supplied are compared (log 12). -/
def Buffer.overlaps (b b' : Buffer) : Bool :=
  max b.base b'.base < min (b.base + b.size) (b'.base + b'.size)

/-- An instance's invocation in flight was given a buffer that overlaps `b` (R95). -/
def Instance.claims (a : Instance) (b : Buffer) : Bool :=
  match a.buffer with
  | none => false
  | some b' => b'.overlaps b

/-- The current instance's step is taken and leaves it as `a`.  The next invocation in flight becomes current; when there
is none, the instance stays current, its operand still on its port (R23, R86; log 7, log 8). -/
def State.finish (s : State) (a : Instance) : State :=
  match s.waiting with
  | [] => { s with current := a }
  | b :: rest => { s with current := b, waiting := rest, idle := a :: s.idle }

/-- An instance's invocation comes into flight, last in the schedule.  An instance whose port is not driven has no
invocation in flight and gives up its turn (R86; log 8). -/
def State.enqueue (s : State) (a : Instance) : State :=
  match s.current.valueI with
  | none => { s with current := a, idle := s.current :: s.idle }
  | some _ => { s with waiting := s.waiting ++ [a] }

end Sys2Proof.Machine
end

