-- ==== Sys2Proof/Machine/Encode.lean ====
section
/-! DEFINITION. The meaning of ENCODE, the block's one instruction (42_encode R70), in both of its forms. -/

namespace Sys2Proof.Machine

/-- The buffer form (R36): the output's characters are also written to the caller's buffer.  A buffer shorter than L and
a buffer shared with another invocation in flight are refused (R94, R95); otherwise L bytes are written from its base.
DESIGN CHOICE: the port carries the same characters, and addresses have no top (log 9, log 11, log 12). -/
def encodeToBuffer (b : Buffer) (chars : List Byte) (s : State) : Host.Outcome State Fault Refusal :=
  if b.size < chars.length then .refused .bufferTooShort
  else if s.waiting.any (fun a => a.claims b) then .refused .sharedBuffer
  else .next ({ s with mem := storeChars b.base chars s.mem }.finish (s.current.deliver chars))

/-- `ENCODE value` (R70): the characters of the operand are delivered on the current instance's output port and, in the
buffer form, in the caller's buffer.  In the port form it always completes (R71).
DESIGN CHOICE: the operand port is left as it is (log 16). -/
def execEncode (value : Word) (s : State) : Host.Outcome State Fault Refusal :=
  match s.current.buffer with
  | none => .next (s.finish (s.current.deliver (outputChars s.current.config value)))
  | some b => encodeToBuffer b (outputChars s.current.config value) s

end Sys2Proof.Machine
end

