-- ==== Sys2Proof/Machine/Step.lean ====
section
/-! DEFINITION. One step: one invocation on the current instance (R13).  There is no program counter and no fetch from a
memory (R17): the request is the word on `value_i`, and the operation is wired (R43). -/

namespace Sys2Proof.Machine

/-- One step.  An operand port that carries no 0/1 pattern is outside the model (R21, D13, U8: refused; log 5).
The model has no time (log 20). -/
def step (s : State) : Host.Outcome State Fault Refusal :=
  match s.current.valueI with
  | none => .refused .operandUndriven
  | some w => exec (decodeWord w) s

/-- The state with the word of a table row presented where the next step reads its request: on `value_i` of the current
instance.  It stands for the host's presenting an operand, with the call in flight if there is one (log 4). -/
def State.withFetchWord (s : State) (nbits w : Nat) : State :=
  { s with current := s.current.drive (tableWord nbits w) }

end Sys2Proof.Machine
end

