-- ==== Sys2Proof/Machine/HostEvents.lean ====
section
/-! DEFINITION. What the outside world can do to the machine between two steps (60_exceptions R84 to R90, 70_reset R90 to R95).
No event is an instruction, and none changes an instance's parameters (R19). -/

namespace Sys2Proof.Machine

/-- The host's actions. -/
inductive HostEvent where
  /-- Present an operand on the current instance, all 64 wires driven (R84, R92): `ENCODE v`, or `ENCODE v -> B` with a
  buffer (R36, R52).  No effect while a buffer-form call is in flight on it (DESIGN CHOICE, log 21). -/
  | present (v : Word) (b : Option Buffer)
  /-- Leave the current `value_i` without a defined pattern (R21, D13).  No effect while a buffer-form call is in flight
  on it (DESIGN CHOICE, log 21). -/
  | undrive
  /-- Bring an invocation on a further instance into flight (R86). -/
  | invoke (c : Config) (v : Word) (b : Option Buffer)
  /-- Bring a successive invocation on idle instance number k into flight (R39 (c), R86); no effect if there is none. -/
  | reuse (k : Nat) (v : Word) (b : Option Buffer)
  /-- Write a byte of the host's own memory (R35). -/
  | store (x : Nat) (c : Byte)
  /-- Sample `out_o` or read the buffer: nothing the host does with what it read affects the block (R34, R35). -/
  | sample
  /-- Assert a system reset elsewhere (R90). -/
  | systemReset
  /-- Remove and restore the power of the current instance (R89). -/
  | powerCycle
  deriving DecidableEq, Repr

/-- An instance, with no call in flight, on which the operand `v` has just been presented.
DESIGN CHOICE: in the port form it takes the place of an operand whose step has not been taken, for the output follows
`value_i` (R22, R93; log 21).  A buffer-form call in flight is never replaced: `HostEvent.apply` sees to it (R80). -/
def Instance.present (a : Instance) (v : Word) (b : Option Buffer) : Instance :=
  { a.drive v with buffer := b }

/-- A further instance, elaborated with parameters `c`, that nobody has driven yet. -/
def Instance.fresh (c : Config) : Instance :=
  { config := c, valueI := none, out := unsettledOut c, buffer := none }

/-- A host's action on the operand port of an instance `a`, as what it makes of the state.  While a buffer-form call is in
flight on `a` there is none: the call cannot be cancelled and yields its output (R80), and the instance serves one operand
at a time (R86).  DESIGN CHOICE: the spec does not say what becomes of the action; the model drops it (log 21). -/
def State.unlessInCall (s : State) (a : Instance) (s' : State) : State :=
  match a.buffer with
  | none => s'
  | some _ => s

/-- The effect of an event.  A system reset has none (R90), and no event cancels a buffer-form call (R80; log 21).
DEDUCED: a power cycle leaves what the host drives and unsettles the output until the next step (R89, R93; log 18). -/
def HostEvent.apply : HostEvent → State → State
  | .present v b, s => s.unlessInCall s.current { s with current := s.current.present v b }
  | .undrive, s => s.unlessInCall s.current (s.finish s.current.undrive)
  | .invoke c v b, s => s.enqueue ((Instance.fresh c).present v b)
  | .reuse k v b, s =>
    match s.idle[k]? with
    | none => s
    | some a => s.unlessInCall a ({ s with idle := s.idle.eraseIdx k }.enqueue (a.present v b))
  | .store x c, s => { s with mem := Memory.write s.mem x c }
  | .sample, s => s
  | .systemReset, s => s
  | .powerCycle, s => { s with current := { s.current with out := unsettledOut s.current.config } }

/-- An event brings only admissible parameters into the machine (R7, R8). -/
def HostEvent.admissible : HostEvent → Bool
  | .invoke c _ _ => c.admissible
  | _ => true

end Sys2Proof.Machine
end

