-- ==== Sys2Proof/Machine/Readback.lean ====
section
/-! DEFINITION. DECODE, the specification-only inverse reading of a digit string (R75).  It is no operation of the block
(R53) and no meaning uses it; it states the round trip (R76). -/

namespace Sys2Proof.Machine

/-- A sequence DECODE is defined on: 64 characters, each `CODE_ZERO` or `CODE_ONE` (R75). -/
def isDigitString (c : Config) (s : List Byte) : Bool :=
  s.length == 64 && s.all (fun ch => ch == c.codeZero || ch == c.codeOne)

/-- The loop of R75 over the bit numbers in `is`: `raw[i] <- 1 if s[63 - i] == CODE_ONE else 0`. -/
def readDigits (c : Config) (s : List Byte) (is : List Nat) : Word :=
  is.foldl (fun raw i => if s[63 - i]? = some c.codeOne then raw ||| (1#64 <<< i) else raw) 0#64

/-- DECODE (R75); `none` on a sequence it is not defined on (DEDUCED, log 19). -/
def decodeString (c : Config) (s : List Byte) : Option Word :=
  if isDigitString c s then some (readDigits c s (List.range 64)) else none

/-- DECODE of a whole output: it reads positions 0 to 63 only and ignores a terminator (R75).
DEDUCED: what it ignores is the instance's own terminator, and with anything else after position 63 the sequence is of
another length and has no result (log 19). -/
def decodeOutput (c : Config) (chars : List Byte) : Option Word :=
  if chars.drop 64 = [] ∨ chars.drop 64 = terminatorLane c then decodeString c (chars.take 64) else none

end Sys2Proof.Machine
end

