-- ==== Sys2Proof/Safety.lean ====
section
/-! DEFINITION. The terms in which claims about the machine are stated: what a state may look like, and what the host owes. -/

namespace Sys2Proof.Machine

/-- What output position k holds for the operand `v`, as the rules say it and with none of the meaning's functions: the
character of operand bit `63 - k` (R28, R62), the terminator at position 64 when there is one (R66), and no other
position (R37). -/
def outputAt (c : Config) (v : Word) (k : Nat) : Option Byte :=
  if k < 64 then some (if v.getLsbD (63 - k) then c.codeOne else c.codeZero)
  else if k = 64 ∧ c.termPresent = true then some c.termCode
  else none

/-- What an output port carries once it has settled on the operand `v`: exactly the L characters of `v` (R22, R32). -/
def settledOut (c : Config) (v : Word) : Memory := storeChars 0 (outputChars c v) []

/-- The output port never carries anything but `ENCODE(value_i)`: it is settled on the present operand, or its digits
are unspecified (R22, R26, R91, R93). -/
def Instance.OutSound (a : Instance) : Prop :=
  a.out = unsettledOut a.config ∨ ∃ v, a.valueI = some v ∧ a.out = settledOut a.config v

/-- What holds of every instance. -/
structure Instance.Inv (a : Instance) : Prop where
  /-- Its parameters are admissible (R7, R8). -/
  admissible : a.config.admissible = true
  /-- Its output port is sound. -/
  outSound : a.OutSound
  /-- A buffer-form invocation in flight has its operand (R36, D10). -/
  callDriven : a.buffer ≠ none → a.valueI ≠ none

/-- Every instance of the machine. -/
def State.instances (s : State) : List Instance := s.current :: (s.waiting ++ s.idle)

/-- The invariant of the machine. -/
structure State.Inv (s : State) : Prop where
  /-- The host's memory has its canonical form. -/
  memWf : Memory.wf s.mem
  /-- Every instance is sound. -/
  instancesInv : ∀ a ∈ s.instances, a.Inv
  /-- Every instance in flight has an operand (R92). -/
  waitingDriven : ∀ a ∈ s.waiting, a.valueI ≠ none
  /-- The turn is an instance in flight whenever there is one. -/
  turnDriven : s.waiting ≠ [] → s.current.valueI ≠ none
  /-- An idle instance has no buffer-form invocation in flight. -/
  idleNoCall : ∀ a ∈ s.idle, a.buffer = none

/-- Two buffers have a byte in common (R95). -/
def Buffer.ShareByte (b b' : Buffer) : Prop :=
  ∃ x, (b.base ≤ x ∧ x < b.base + b.size) ∧ (b'.base ≤ x ∧ x < b'.base + b'.size)

/-- What the host owes the next step (R84, R92, R94, R95): the operand is driven and, in the buffer form, the buffer has
L bytes, none of them in the buffer of another invocation in flight. -/
structure State.HostDuty (s : State) : Prop where
  operand : s.current.valueI ≠ none
  bufferSize : ∀ b, s.current.buffer = some b → positions s.current.config ≤ b.size
  ownBuffer : ∀ b, s.current.buffer = some b →
    ∀ a ∈ s.waiting, ∀ b', a.buffer = some b' → ¬ b.ShareByte b'

/-- The same duty for the whole schedule of a state: every invocation in flight has its operand and a buffer of its own (R39, R84). -/
structure State.ScheduleDuty (s : State) : Prop where
  operands : ∀ a ∈ s.current :: s.waiting, a.valueI ≠ none
  bufferSizes : ∀ a ∈ s.current :: s.waiting, ∀ b, a.buffer = some b → positions a.config ≤ b.size
  ownBuffers : List.Pairwise
    (fun a a' => ∀ b b', a.buffer = some b → a'.buffer = some b' → ¬ b.ShareByte b') (s.current :: s.waiting)

end Sys2Proof.Machine
end

