-- ==== Sys2Proof/Certificates/Slice0/Obligations.lean ====
section
/-! DEFINITION. The statements for the provers.
`v.getLsbD i` is the operand's bit i (R9); `outputAt c v k` is what R28, R62 and R66 say output position k holds.
`s.finish a` is the state in which the current instance's step has been taken and has left it as `a`.  What it does to the
schedule is stated in `StepKeepsTheRest`, and is the model's choice (log 7, log 8), as is that an instance's `valueI` is
left as it is by an invocation (log 16). -/

open Sys2Proof Sys2Proof.Machine

/-! ### The request -/

/-- A step runs the request on `value_i` (R17, R43): when its wires decode to `i`, the step is `exec i`, and nothing is
added around it; when no pattern is driven, the step is refused (D13, U8; its name and place are the model's, log 5). -/
def Obligations.StepRunsTheDecodedRequest : Prop :=
  (∀ (s : State) (w : Word) (i : Instr), s.current.valueI = some w → decode (wiresOf w) = .ok i → step s = exec i s) ∧
  (∀ s : State, s.current.valueI = none → step s = .refused .operandUndriven)

/-- R49: every word `w` selects the row (`w & mask == match`), and decodes to ENCODE with `value = w`. -/
def Obligations.EveryWordSelectsEncode : Prop :=
  encodeRow.mask = 0x0000000000000000#64 ∧ encodeRow.matchBits = 0x0000000000000000#64 ∧
  ∀ w : Word, w &&& encodeRow.mask = encodeRow.matchBits ∧ encodeRow.selects w = true ∧ decodeWord w = .encode w

/-- Decode and encode agree on all instructions and on all requests: no bit of the one format is dropped (R43, R45, R50).
That a list of another length than 64 is rejected, and the two names it is rejected by, are the model's choice (log 15);
the spec has no such request. -/
def Obligations.DecodeEncodeRoundTrip : Prop :=
  (∀ i : Instr, i.wellFormed = true → decode (encode i) = .ok i) ∧
  (∀ (wires : List Bool) (i : Instr), decode wires = .ok i → encode i = wires) ∧
  (∀ wires : List Bool, (∃ i, decode wires = .ok i) ↔ wires.length = 64) ∧
  (∀ wires : List Bool, wires.length < 64 → decode wires = .error (.tooFewWires wires.length)) ∧
  (∀ wires : List Bool, 64 < wires.length → decode wires = .error (.tooManyWires wires.length))

/-- A few requests written out wire by wire, bit 63 first as the pattern string of R49 has it, decode to the
instruction they stand for (vectors V2, V5, V9 and V16 of 95_test_vectors.md). -/
def Obligations.WrittenRequestsDecode : Prop :=
  decode ([true] ++ List.replicate 63 false).reverse = .ok (.encode 0x8000000000000000#64) ∧
  decode ([false, true, false, false, false, false, false, false, false, false, false, false,
      true, false, false, true, false, false, false, true, true, true, true, false,
      true, false, true, true, true, false, false, false, false, true, false, true,
      false, false, false, true, true, true, true, false, true, false, true, true,
      true, false, false, false, false, true, false, true, false, false, false, true,
      true, true, true, true].reverse) = .ok (.encode 0x40091EB851EB851F#64) ∧
  decode (List.replicate 63 false ++ [true]).reverse = .ok (.encode 0x0000000000000001#64) ∧
  decode ([false] ++ List.replicate 11 true ++ [false, true, false, false] ++
      [true, true, false, true, true, true, true, false, true, false, true, false, true, true, false, true] ++
      [true, false, true, true, true, true, true, false, true, true, true, false, true, true, true, true] ++
      (List.replicate 15 false ++ [true])).reverse = .ok (.encode 0x7FF4DEADBEEF0001#64)

/-! ### The bit test -/

/-- R61: the shifted-mask test, the logical right shift, the quotient and the bit are the same for every constant position
`0 <= i <= 63`; bit 63 is set exactly when `raw >= 2^63`, and bit 0 is `raw mod 2`. -/
def Obligations.BitTestIsTheNumberedBit : Prop :=
  ∀ (raw : Word),
    (∀ i, i ≤ 63 →
      bitTest raw i = raw.getLsbD i ∧
      (bitTest raw i = true ↔ raw &&& (1#64 <<< i) ≠ 0#64) ∧
      (bitTest raw i = true ↔ (raw >>> i) &&& 1#64 = 1#64) ∧
      (bitTest raw i = true ↔ raw.toNat / 2 ^ i % 2 = 1)) ∧
    (bitTest raw 63 = true ↔ 2 ^ 63 ≤ raw.toNat) ∧
    (bitTest raw 0 = true ↔ raw.toNat % 2 = 1)

/-! ### The result of ENCODE -/

/-- R62, R66, R28: ENCODE in the port form completes for every operand, and every output position holds what the index map
says: position k the character of bit `63 - k`, position 64 the terminator exactly when there is one, nothing beyond. -/
def Obligations.EncodeFillsTheOutput : Prop :=
  ∀ (v : Word) (s : State), s.Inv → s.current.buffer = none →
    ∃ out : Memory,
      exec (.encode v) s = .next (s.finish { s.current with out := out }) ∧
      (∀ k, k < 64 → Memory.read out k =
        some (if v.getLsbD (63 - k) then s.current.config.codeOne else s.current.config.codeZero)) ∧
      Memory.read out 64 = (if s.current.config.termPresent then some s.current.config.termCode else none) ∧
      (∀ k, 64 < k → Memory.read out k = none)

/-- R30: on the flat bus, bit j of the code of character k is `out_o[8k + j]`, the bus has no other bits set, and read
as one unsigned integer it is the sum of `buf[k] * 2^(8k)` (the spec's own packing, D8; log 13). -/
def Obligations.BusPacksCharacters : Prop :=
  ∀ (v : Word) (s : State), s.Inv → s.current.buffer = none →
    ∃ (a : Instance) (bus : BitVec (8 * positions a.config)) (buf : Nat → Byte),
      exec (.encode v) s = .next (s.finish a) ∧ a.config = s.current.config ∧ a.outBus = some bus ∧
      (∀ k, k < positions a.config → outputAt a.config v k = some (buf k)) ∧
      (∀ k j, k < positions a.config → j < 8 → bus.getLsbD (8 * k + j) = (buf k).getLsbD j) ∧
      bus.toNat = (Finset.range (positions a.config)).sum (fun k => (buf k).toNat * 2 ^ (8 * k))

/-- R47: with the default codes the character of position k is seven constant bits and the operand bit, wire by wire
(section 2.5 of 95_test_vectors.md). -/
def Obligations.DefaultCodesDriveOneWire : Prop :=
  ∀ (v : Word) (s : State), s.Inv → s.current.buffer = none →
    s.current.config.codeZero = 0x30#8 → s.current.config.codeOne = 0x31#8 →
    ∃ (a : Instance) (bus : BitVec (8 * positions a.config)),
      exec (.encode v) s = .next (s.finish a) ∧ a.outBus = some bus ∧
      ∀ k, k < 64 →
        bus.extractLsb' (8 * k + 1) 7 = 0b0011000#7 ∧ bus.getLsbD (8 * k) = v.getLsbD (63 - k)

/-- R67: the segments of the digit string.  `buf[0]` renders the sign, `buf[1..11]` the exponent from its most
significant bit, `buf[12..63]` the mantissa from bit 51. -/
def Obligations.SegmentsRenderTheFields : Prop :=
  ∀ (v : Word) (s : State), s.Inv → s.current.buffer = none →
    ∃ a : Instance,
      exec (.encode v) s = .next (s.finish a) ∧
      Memory.read a.out 0 =
        some (if signField v = 1#1 then s.current.config.codeOne else s.current.config.codeZero) ∧
      (∀ k, 1 ≤ k → k ≤ 11 → Memory.read a.out k =
        some (if (exponentField v).getLsbD (11 - k) then s.current.config.codeOne else s.current.config.codeZero)) ∧
      (∀ k, 12 ≤ k → k ≤ 63 → Memory.read a.out k =
        some (if (mantissaField v).getLsbD (63 - k) then s.current.config.codeOne else s.current.config.codeZero)) ∧
      v = signField v ++ exponentField v ++ mantissaField v

/-- R64, R65, R74: for every operand the digit string is the 64 lane outputs in order, 64 characters long, each of them
one of the two codes. -/
def Obligations.DigitStringShape : Prop :=
  ∀ (v : Word) (s : State), s.Inv → s.current.buffer = none →
    ∃ (a : Instance) (digits : List Byte),
      exec (.encode v) s = .next (s.finish a) ∧
      readChars a.out 0 64 = some digits ∧ digits.length = 64 ∧
      (∀ k, k < 64 → digits[k]? =
        some (if v.getLsbD (63 - k) then s.current.config.codeOne else s.current.config.codeZero)) ∧
      (∀ ch ∈ digits, ch = s.current.config.codeZero ∨ ch = s.current.config.codeOne)

/-- R58: +0.0 gives 64 zero characters and -0.0 a `'1'` followed by 63 zero characters, and the two results differ. -/
def Obligations.SignedZerosAreDistinct : Prop :=
  ∀ s : State, s.Inv → s.current.buffer = none →
    ∃ pos neg : Instance,
      exec (.encode 0x0000000000000000#64) s = .next (s.finish pos) ∧
      exec (.encode 0x8000000000000000#64) s = .next (s.finish neg) ∧
      readChars pos.out 0 64 = some (List.replicate 64 s.current.config.codeZero) ∧
      readChars neg.out 0 64 = some (s.current.config.codeOne :: List.replicate 63 s.current.config.codeZero) ∧
      pos.out ≠ neg.out

/-- R73: two operands give outputs that differ exactly at the positions of the bits in which the operands differ. -/
def Obligations.BitLocality : Prop :=
  ∀ (v w : Word) (s : State), s.Inv → s.current.buffer = none →
    ∃ a b : Instance,
      exec (.encode v) s = .next (s.finish a) ∧ exec (.encode w) s = .next (s.finish b) ∧
      (∀ i, i < 64 → (Memory.read a.out (63 - i) ≠ Memory.read b.out (63 - i) ↔ v.getLsbD i ≠ w.getLsbD i)) ∧
      (∀ k, 64 ≤ k → Memory.read a.out k = Memory.read b.out k)

/-- R69: the digit string is the base-2 numeral of the operand, most significant digit first, and different operands have
different digit strings. -/
def Obligations.DigitsAreTheNumeral : Prop :=
  ∀ (s : State), s.Inv → s.current.buffer = none →
    ∃ out : Word → Instance,
      (∀ v, exec (.encode v) s = .next (s.finish (out v))) ∧
      (∀ v : Word, v.toNat = (Finset.range 64).sum (fun k =>
        (if Memory.read (out v).out k = some s.current.config.codeOne then 1 else 0) * 2 ^ (63 - k))) ∧
      (∀ v w : Word, v ≠ w → ∃ k, k < 64 ∧ Memory.read (out v).out k ≠ Memory.read (out w).out k)

/-- R76, the machine's half: decoding what a step put on the output port gives back the operand bit for bit. -/
def Obligations.StepOutputDecodesToOperand : Prop :=
  ∀ (v : Word) (s : State), s.Inv → s.current.buffer = none → s.current.valueI = some v →
    ∃ (a : Instance) (chars : List Byte),
      step s = .next (s.finish a) ∧ readChars a.out 0 (positions a.config) = some chars ∧
      decodeOutput s.current.config chars = some v

/-- R76, R75: ENCODE is a bijection between the 64-bit patterns and the digit strings.  DECODE is defined exactly on
the sequences of 64 digit codes, is the sum of R75 there, and ignores a terminator.  That it answers no result where R75
leaves it undefined is the model's reading (log 19, DEDUCED). -/
def Obligations.EncodeDecodeBijection : Prop :=
  ∀ c : Config, c.admissible = true →
    (∀ v : Word, decodeString c ((outputChars c v).take 64) = some v ∧ decodeOutput c (outputChars c v) = some v) ∧
    (∀ str : List Byte, str.length = 64 → (∀ ch ∈ str, ch = c.codeZero ∨ ch = c.codeOne) →
      ∃ v : Word, decodeString c str = some v ∧ (outputChars c v).take 64 = str ∧
        v.toNat = (Finset.range 64).sum (fun k => (if str[k]? = some c.codeOne then 1 else 0) * 2 ^ (63 - k))) ∧
    (∀ str : List Byte, (str.length ≠ 64 ∨ ∃ ch ∈ str, ch ≠ c.codeZero ∧ ch ≠ c.codeOne) → decodeString c str = none)

/-- R75: DECODE of a whole output reads positions 0 to 63 and ignores a terminator behind them.  That only the instance's
own terminator is one, and that a sequence with anything else behind position 63 has no result, is the model's reading
(log 19, DEDUCED). -/
def Obligations.DecodeIgnoresOnlyATerminator : Prop :=
  ∀ (c : Config) (str extra : List Byte), str.length = 64 →
    (extra = [] → decodeOutput c (str ++ extra) = decodeString c str) ∧
    (c.termPresent = true → extra = [c.termCode] → decodeOutput c (str ++ extra) = decodeString c str) ∧
    (extra ≠ [] → (c.termPresent = true → extra ≠ [c.termCode]) → decodeOutput c (str ++ extra) = none)

/-- R63, R39 (a): the order in which a sequential rendering writes the digit positions cannot be observed: whatever the
order, the output space holds the same as after the parallel lanes. -/
def Obligations.LaneOrderUnobservable : Prop :=
  ∀ (v : Word) (s : State) (order : List Nat), s.Inv → s.current.buffer = none → order.Perm (List.range 64) →
    exec (.encode v) s = .next (s.finish { s.current with
      out := storeChars 64 (terminatorLane s.current.config) (writeLanes s.current.config v order s.current.out) })

/-! ### The buffer form -/

/-- R36, R32: the buffer form writes the characters to `B .. B+L-1` and leaves every byte below and above unchanged; with
a terminator, byte `B+64` holds it.  That the wrapper also leaves the same characters on the port, and that addresses have
no top, are the model's choices (log 9); that whole supplied buffers are compared for sharing is log 12. -/
def Obligations.BufferFormWritesTheBuffer : Prop :=
  ∀ (v : Word) (s : State) (b : Buffer), s.Inv → s.current.buffer = some b →
    positions s.current.config ≤ b.size →
    (∀ a ∈ s.waiting, ∀ b', a.buffer = some b' → ¬ b.ShareByte b') →
    ∃ out mem : Memory,
      exec (.encode v) s = .next ({ s with mem := mem }.finish { s.current with out := out, buffer := none }) ∧
      (∀ k, k < 64 → Memory.read mem (b.base + k) =
        some (if v.getLsbD (63 - k) then s.current.config.codeOne else s.current.config.codeZero)) ∧
      (s.current.config.termPresent = true → Memory.read mem (b.base + 64) = some s.current.config.termCode) ∧
      (∀ x, x < b.base ∨ b.base + positions s.current.config ≤ x → Memory.read mem x = Memory.read s.mem x) ∧
      (∀ k, Memory.read out k = outputAt s.current.config v k)

/-- R94, U2: an invocation whose buffer is shorter than L is refused, whatever the operand and the state.  The refusal's
name, and that it comes before a look at sharing, are the model's (log 11, log 12). -/
def Obligations.ShortBufferRefused : Prop :=
  ∀ (v : Word) (s : State) (b : Buffer), s.current.buffer = some b →
    b.size < (if s.current.config.termPresent then 65 else 64) →
    exec (.encode v) s = .refused .bufferTooShort

/-- R95, U3: two invocations in flight with the same or overlapping buffers are refused; in the port form the case cannot
arise and the invocation completes, whatever the others are doing.  That the first of the two is the one refused, by this
name, and that the whole buffers as supplied are compared, are the model's choices (log 12). -/
def Obligations.SharedBufferRefused : Prop :=
  (∀ (v : Word) (s : State) (b : Buffer), s.current.buffer = some b → positions s.current.config ≤ b.size →
    (∃ a ∈ s.waiting, ∃ b', a.buffer = some b' ∧ b.ShareByte b') →
    exec (.encode v) s = .refused .sharedBuffer) ∧
  (∀ (v : Word) (s : State), s.current.buffer = none → ∃ t, exec (.encode v) s = .next t)

/-! ### What an invocation leaves unchanged, and what it does not depend on -/

/-- The frame of ENCODE (R32, R34, R35): the instance keeps its parameters and its operand port; nothing outside
positions `0 .. L-1` of its output is written; no byte of memory changes but the L bytes of the buffer form, none in the
port form; every other instance is kept.  That the turn then passes to the next instance in flight, or that the instance
stays current when there is none (log 7, log 8), and that `value_i` is left as it is (log 16), are the model's choices. -/
def Obligations.StepKeepsTheRest : Prop :=
  ∀ (v : Word) (s t : State), exec (.encode v) s = .next t →
    ∃ a : Instance,
      a.config = s.current.config ∧ a.valueI = s.current.valueI ∧ a.buffer = none ∧
      (∀ k, positions s.current.config ≤ k → Memory.read a.out k = Memory.read s.current.out k) ∧
      (s.current.buffer = none → t.mem = s.mem) ∧
      (∀ b, s.current.buffer = some b → ∀ x, x < b.base ∨ b.base + positions s.current.config ≤ x →
        Memory.read t.mem x = Memory.read s.mem x) ∧
      (s.waiting = [] → t.current = a ∧ t.waiting = [] ∧ t.idle = s.idle) ∧
      (∀ n rest, s.waiting = n :: rest → t.current = n ∧ t.waiting = rest ∧ t.idle = a :: s.idle)

/-- R72, R15: the output depends on the operand and the configuration only.  Two steps with the same operand and the same
parameters leave the same output port, whatever else the two states hold: earlier outputs, memory, other instances. -/
def Obligations.OutputDependsOnOperandOnly : Prop :=
  ∀ (v : Word) (s s' : State), s.Inv → s'.Inv → s.HostDuty → s'.HostDuty →
    s.current.valueI = some v → s'.current.valueI = some v → s.current.config = s'.current.config →
    ∃ (a a' : Instance) (m m' : Memory),
      step s = .next ({ s with mem := m }.finish a) ∧ step s' = .next ({ s' with mem := m' }.finish a') ∧
      a.out = a'.out

/-- R72: invoking twice with the same operand gives the same output.  With no other invocation in flight, the second step
changes nothing at all; that there is such a step is the model's choice (log 7). -/
def Obligations.SecondInvocationChangesNothing : Prop :=
  ∀ s t : State, s.Inv → s.waiting = [] → step s = .next t → step t = .next t

/-- R25, R19: no step changes an instance's parameters, and no host event does: each keeps the parameters of every
instance there is. -/
def Obligations.ConfigurationNeverChanges : Prop :=
  (∀ s t : State, step s = .next t → (t.instances.map (fun a => a.config)).Perm (s.instances.map (fun a => a.config))) ∧
  (∀ (s : State) (e : HostEvent), (∀ c v b, e ≠ .invoke c v b) →
    ((e.apply s).instances.map (fun a => a.config)).Perm (s.instances.map (fun a => a.config))) ∧
  (∀ (s : State) (c : Config) (v : Word) (b : Option Buffer),
    (((HostEvent.invoke c v b).apply s).instances.map (fun a => a.config)).Perm
      (c :: s.instances.map (fun a => a.config)))

/-! ### Totality and refusals -/

/-- R71, D23: a step completes exactly when the host has done its duty, never faults, and each refusal has exactly
the host's breach it is named for: an undriven operand (D13, U8), a short buffer (R94, U2), a shared buffer (R95, D18, U3).
The names and places of the refusals are the model's (log 5 and log 11, DEDUCED), and so is that the whole supplied buffers
are compared (log 12, DESIGN CHOICE). -/
def Obligations.StepCompletesIffHostDuty : Prop :=
  ∀ s : State,
    ((∃ t, step s = .next t) ↔ s.HostDuty) ∧
    (∀ f, step s ≠ .fault f) ∧
    (∀ r, step s = .refused r →
      (r = .operandUndriven ∧ s.current.valueI = none) ∨
      (r = .bufferTooShort ∧ ∃ b, s.current.buffer = some b ∧ b.size < positions s.current.config) ∨
      (r = .sharedBuffer ∧ ∃ b, s.current.buffer = some b ∧
        ∃ a ∈ s.waiting, ∃ b', a.buffer = some b' ∧ b.ShareByte b'))

/-! ### The invariant and the schedule -/

/-- Every step keeps the invariant: in particular every output port carries `ENCODE(value_i)` or is unsettled (R22).
What it says of the schedule and of calls in flight is about the model's own fields (log 1, log 8). -/
def Obligations.StepKeepsInvariant : Prop :=
  ∀ s t : State, s.Inv → step s = .next t → t.Inv

/-- Every action of the host keeps the invariant, if the parameters it elaborates an instance with are admissible.  The list
of actions is the model's (log 18). -/
def Obligations.HostEventKeepsInvariant : Prop :=
  ∀ (s : State) (e : HostEvent), s.Inv → e.admissible = true → (e.apply s).Inv

/-- The invariant holds after reset (the reset state is the model's choice, log 3). -/
def Obligations.ResetMeetsInvariant : Prop := State.reset.Inv

/-- R39 (b), R86: every schedule of the invocations in flight gives each of them the output of its own operand, in its own
port and its own buffer, and the schedules agree on all of memory and all instances.  That a schedule is an order of whole
steps is the model's choice (log 8), and so is that a buffer-form invocation also leaves its characters on the port (log 9). -/
def Obligations.EveryScheduleGivesOwnOutputs : Prop :=
  ∀ s s' : State, s.Inv → s'.Inv → s.ScheduleDuty →
    (s'.current :: s'.waiting).Perm (s.current :: s.waiting) → s'.idle = s.idle → s'.mem = s.mem →
    ∃ t t' : State,
      core.run (s.waiting.length + 1) s = .next t ∧ core.run (s.waiting.length + 1) s' = .next t' ∧
      t'.mem = t.mem ∧ t'.instances.Perm t.instances ∧
      (∀ a ∈ s.current :: s.waiting, ∀ v, a.valueI = some v →
        (∃ a' ∈ t.instances, a'.config = a.config ∧ a'.valueI = some v ∧
          ∀ k, Memory.read a'.out k = outputAt a.config v k) ∧
        (∀ b, a.buffer = some b → ∀ k, k < positions a.config →
          Memory.read t.mem (b.base + k) = outputAt a.config v k)) ∧
      (∀ x, (∀ a ∈ s.current :: s.waiting, ∀ b, a.buffer = some b → x < b.base ∨ b.base + positions a.config ≤ x) →
        Memory.read t.mem x = Memory.read s.mem x)

/-! ### Reset, hazards and the host -/

/-- R26, R90, R91: after reset no output is specified, and from the first step after any operand is presented the output
port carries `ENCODE` of it.  That the reset machine is one undriven instance with the port form's default parameters is
the model's choice (log 2, log 3). -/
def Obligations.ResetThenPresentEncodes : Prop :=
  State.reset.current.config = { codeZero := 0x30#8, codeOne := 0x31#8, termPresent := false, termCode := 0x00#8 } ∧
  State.reset.current.valueI = none ∧ State.reset.current.buffer = none ∧ State.reset.waiting = [] ∧
  State.reset.idle = [] ∧ (∀ k, Memory.read State.reset.current.out k = none) ∧
  (∀ x, Memory.read State.reset.mem x = none) ∧
  ∀ v : Word, ∃ t, step ((HostEvent.present v none).apply State.reset) = .next t ∧
    ∀ k, Memory.read t.current.out k = outputAt State.reset.current.config v k

/-- R91, R93: between a change of `value_i` and the step no digit is specified, while the terminator is there at all
times.  That an unspecified digit reads as nothing is the model's choice (log 6).  While a buffer-form call is in flight
`value_i` does not change: `CallInFlightIsNotCancelled`. -/
def Obligations.DigitsUnspecifiedUntilTheStep : Prop :=
  ∀ (s : State) (v : Word) (b : Option Buffer) (k : Nat), s.current.buffer = none →
    Memory.read ((HostEvent.present v b).apply s).current.out k =
      if k = 64 ∧ s.current.config.termPresent = true then some s.current.config.termCode else none

/-- R89, R90: a system reset has no effect; and a power cycle, which unsettles the output, loses nothing: the step after it
leaves the machine as the step without it, with `ENCODE(value_i)` on the port.  How a power cycle acts on the fields is the
model's reading (log 18, DEDUCED). -/
def Obligations.ResetAndPowerCycleLoseNothing : Prop :=
  (∀ s : State, HostEvent.systemReset.apply s = s) ∧
  (∀ s : State, s.Inv → step (HostEvent.powerCycle.apply s) = step s) ∧
  (∀ (s : State) (v : Word), s.Inv → s.current.buffer = none → s.current.valueI = some v →
    ∃ out : Memory, step (HostEvent.powerCycle.apply s) = .next (s.finish { s.current with out := out }) ∧
      ∀ k, Memory.read out k = outputAt s.current.config v k)

/-- R80: nothing abandons a buffer-form call in flight.  Whatever the host does before its step, the call keeps its instance's
turn, its operand, its parameters and its buffer, every other invocation in flight stays in flight, and the step, if the
host has done its duty, writes all L characters of that operand to that buffer.  That the host's presenting another operand
on the instance, or undriving it, meanwhile has no effect at all is the model's choice (log 21). -/
def Obligations.CallInFlightIsNotCancelled : Prop :=
  ∀ (s : State) (e : HostEvent) (v : Word) (b : Buffer),
    s.current.buffer = some b → s.current.valueI = some v →
    (e.apply s).current.buffer = some b ∧ (e.apply s).current.valueI = some v ∧
    (e.apply s).current.config = s.current.config ∧
    (∀ a ∈ s.waiting, a ∈ (e.apply s).waiting) ∧
    (∀ w b', (HostEvent.present w b').apply s = s) ∧ HostEvent.undrive.apply s = s ∧
    ((e.apply s).HostDuty → ∃ t, step (e.apply s) = .next t ∧
      ∀ k, k < positions s.current.config → Memory.read t.mem (b.base + k) = outputAt s.current.config v k)

/-- R80, R39: no event of the host takes an invocation on another instance out of flight, whatever the current instance does:
it is still waiting, or the turn has come to it.  That a port-form turn passes on when its operand is undriven is the model's
choice (log 8, log 21). -/
def Obligations.WaitingInvocationsStayInFlight : Prop :=
  ∀ (s : State) (e : HostEvent), ∀ a ∈ s.waiting,
    a ∈ (e.apply s).waiting ∨ (a = (e.apply s).current ∧ e = .undrive)

/-- R39 (c): successive operands on one instance give successive outputs, each a function of its own operand only: after
any step, a newly presented operand's step shows nothing of the operand before it. -/
def Obligations.SuccessiveOperandsAreIndependent : Prop :=
  ∀ (s t : State) (v : Word), s.Inv → s.waiting = [] → step s = .next t →
    ∃ t' : State, step ((HostEvent.present v none).apply t) = .next t' ∧
      (∀ k, Memory.read t'.current.out k = outputAt s.current.config v k) ∧
      t'.mem = t.mem ∧ t'.waiting = [] ∧ t'.idle = t.idle

/-- The word of a table row placed for the next step is the request that the step runs (log 4). -/
def Obligations.FetchWordIsRunNext : Prop :=
  ∀ (s : State) (nbits w : Nat) (i : Instr), decodeTableWord nbits w = some i →
    step (s.withFetchWord nbits w) = exec i (s.withFetchWord nbits w)
end

