-- ==== Sys2Proof/Laws/Memory.lean ====
section
/-! SUPPORT. The laws of memory: what a read sees after a write, that every operation keeps the canonical form, and that
two memories in canonical form with the same reads are the same data. -/

namespace Sys2Proof.Machine

@[simp] theorem read_nil (x : Nat) : Memory.read [] x = none := rfl

theorem read_cons (a : Nat) (b : Byte) (m : Memory) (x : Nat) :
    Memory.read ((a, b) :: m) x = if x = a then some b else Memory.read m x := rfl

/-- A read of the address just written gives the byte written. -/
@[simp] theorem read_write_self (m : Memory) (x : Nat) (c : Byte) : Memory.read (Memory.write m x c) x = some c := by
  induction m with
  | nil => simp [Memory.write, read_cons]
  | cons p m ih =>
    obtain ⟨a, b⟩ := p
    by_cases h1 : x < a
    · simp [Memory.write, h1, read_cons]
    · by_cases h2 : x = a
      · simp [Memory.write, h2, read_cons]
      · simp [Memory.write, h1, h2, read_cons, ih]

/-- A write leaves every other address alone. -/
theorem read_write_other (m : Memory) {x y : Nat} (c : Byte) (h : y ≠ x) :
    Memory.read (Memory.write m x c) y = Memory.read m y := by
  induction m with
  | nil => simp [Memory.write, read_cons, h]
  | cons p m ih =>
    obtain ⟨a, b⟩ := p
    by_cases h1 : x < a
    · simp [Memory.write, h1, read_cons, h]
    · by_cases h2 : x = a
      · subst h2; simp [Memory.write, read_cons, h]
      · simp [Memory.write, h1, h2, read_cons, ih]

/-! ### The canonical form -/

theorem wf_nil : Memory.wf [] := List.Pairwise.nil

theorem wf_cons {a : Nat} {b : Byte} {m : Memory} :
    Memory.wf ((a, b) :: m) ↔ (∀ p ∈ m, a < p.1) ∧ Memory.wf m := by
  simp [Memory.wf, List.pairwise_cons]

/-- The addresses listed after a write are the written one and those listed before. -/
theorem mem_write {m : Memory} {x : Nat} {c : Byte} {p : Host.Cell} (h : p ∈ Memory.write m x c) :
    p = (x, c) ∨ p ∈ m := by
  induction m with
  | nil => simpa [Memory.write] using h
  | cons q m ih =>
    obtain ⟨a, b⟩ := q
    simp only [Memory.write] at h
    split at h
    · simpa using h
    · split at h
      · rcases List.mem_cons.mp h with h | h
        · exact .inl h
        · exact .inr (List.mem_cons_of_mem _ h)
      · rcases List.mem_cons.mp h with h | h
        · exact .inr (h ▸ List.mem_cons_self)
        · exact (ih h).imp id (List.mem_cons_of_mem _)

/-- A write keeps the canonical form. -/
theorem write_wf {m : Memory} (x : Nat) (c : Byte) (h : Memory.wf m) : Memory.wf (Memory.write m x c) := by
  induction m with
  | nil => simp [Memory.write, Memory.wf]
  | cons p m ih =>
    obtain ⟨a, b⟩ := p
    obtain ⟨hlt, hm⟩ := wf_cons.mp h
    simp only [Memory.write]
    split
    · rename_i hx
      refine wf_cons.mpr ⟨fun p hp => ?_, h⟩
      rcases List.mem_cons.mp hp with hp | hp
      · subst hp; exact hx
      · exact hx.trans (hlt p hp)
    · split
      · rename_i hx
        exact wf_cons.mpr ⟨hx ▸ hlt, hm⟩
      · refine wf_cons.mpr ⟨fun p hp => ?_, ih hm⟩
        rcases mem_write hp with hp | hp
        · subst hp; show a < x; omega
        · exact hlt p hp

theorem read_eq_none_of_lt {m : Memory} {x : Nat} (h : ∀ p ∈ m, x < p.1) : Memory.read m x = none := by
  induction m with
  | nil => rfl
  | cons p m ih =>
    obtain ⟨a, b⟩ := p
    have ha : x < a := h (a, b) List.mem_cons_self
    rw [read_cons, if_neg (by omega)]
    exact ih fun p hp => h p (List.mem_cons_of_mem _ hp)

/-- Memories in canonical form that read alike are equal data. -/
theorem memory_ext {m m' : Memory} (h : Memory.wf m) (h' : Memory.wf m')
    (hr : ∀ x, Memory.read m x = Memory.read m' x) : m = m' := by
  induction m generalizing m' with
  | nil =>
    cases m' with
    | nil => rfl
    | cons p m' =>
      obtain ⟨a, b⟩ := p
      have := hr a
      simp [read_cons] at this
  | cons p m ih =>
    obtain ⟨a, b⟩ := p
    obtain ⟨hlt, hm⟩ := wf_cons.mp h
    cases m' with
    | nil => have := hr a; simp [read_cons] at this
    | cons p' m' =>
      obtain ⟨a', b'⟩ := p'
      obtain ⟨hlt', hm'⟩ := wf_cons.mp h'
      have haa : a = a' := by
        rcases Nat.lt_trichotomy a a' with hl | he | hg
        · have := hr a
          rw [read_cons, if_pos rfl, read_cons, if_neg (by omega),
            read_eq_none_of_lt fun p hp => hl.trans (hlt' p hp)] at this
          cases this
        · exact he
        · have := hr a'
          rw [read_cons, if_neg (by omega), read_cons, if_pos rfl,
            read_eq_none_of_lt fun p hp => hg.trans (hlt p hp)] at this
          cases this
      subst haa
      have hb : b = b' := by have := hr a; simpa [read_cons] using this
      subst hb
      rw [ih hm hm' fun x => ?_]
      by_cases hx : x = a
      · subst hx; rw [read_eq_none_of_lt hlt, read_eq_none_of_lt hlt']
      · have := hr x; rwa [read_cons, if_neg hx, read_cons, if_neg hx] at this

/-! ### Storing characters -/

/-- Storing characters leaves every address outside them alone. -/
theorem read_storeChars_outside (cs : List Byte) {base x : Nat} (m : Memory) (h : x < base ∨ base + cs.length ≤ x) :
    Memory.read (storeChars base cs m) x = Memory.read m x := by
  induction cs generalizing base m with
  | nil => rfl
  | cons c cs ih =>
    simp only [List.length_cons] at h
    rw [storeChars, ih _ (by omega), read_write_other _ _ (by omega)]

/-- Storing characters puts character k at `base + k`. -/
theorem read_storeChars_inside (cs : List Byte) {base k : Nat} (m : Memory) (h : k < cs.length) :
    Memory.read (storeChars base cs m) (base + k) = some cs[k] := by
  induction cs generalizing base k m with
  | nil => simp at h
  | cons c cs ih =>
    cases k with
    | zero =>
      show Memory.read (storeChars (base + 1) cs (Memory.write m base c)) base = some c
      rw [read_storeChars_outside cs _ (by omega), read_write_self]
    | succ k =>
      rw [storeChars, show base + (k + 1) = base + 1 + k by omega, ih _ (by simpa using h)]; rfl

/-- Storing characters keeps the canonical form. -/
theorem storeChars_wf (cs : List Byte) (base : Nat) {m : Memory} (h : Memory.wf m) :
    Memory.wf (storeChars base cs m) := by
  induction cs generalizing base m with
  | nil => exact h
  | cons c cs ih => exact ih _ (write_wf base c h)

/-- What a host samples when every byte of a range is known. -/
theorem readChars_eq_some {m : Memory} {cs : List Byte} {base : Nat}
    (h : ∀ k (hk : k < cs.length), Memory.read m (base + k) = some cs[k]) :
    readChars m base cs.length = some cs := by
  induction cs generalizing base with
  | nil => rfl
  | cons c cs ih =>
    have h0 : Memory.read m base = some c := h 0 (by simp)
    have hs := ih (base := base + 1) fun k hk => by
      have := h (k + 1) (by simpa using hk)
      rwa [show base + (k + 1) = base + 1 + k by omega] at this
    simp [readChars, h0, hs]

end Sys2Proof.Machine
end

