-- ==== Sys2Proof/Laws/Request.lean ====
section
/-! SUPPORT. The laws of request wires. -/

namespace Sys2Proof

@[simp] theorem wiresOf_length (w : Word) : (wiresOf w).length = 64 := by simp [wiresOf]

/-- Wire i of a word is its bit i. -/
theorem wiresOf_getElem? (w : Word) {i : Nat} (h : i < 64) : (wiresOf w)[i]? = some (w.getLsbD i) := by
  rw [wiresOf, List.getElem?_map, List.getElem?_range h]; rfl

/-- Bit i of the integer a list of wires carries is wire i. -/
theorem wiresToNat_testBit (ws : List Bool) (i : Nat) : (wiresToNat ws).testBit i = ws[i]?.getD false := by
  induction ws generalizing i with
  | nil => simp [wiresToNat]
  | cons b bs ih =>
    cases i with
    | zero => cases b <;> simp [wiresToNat, Nat.testBit_zero]
    | succ i =>
      rw [Nat.testBit_succ, wiresToNat, List.getElem?_cons_succ, ← ih]
      congr 1
      cases b <;> simp only [Bool.toNat_true, Bool.toNat_false] <;> omega

end Sys2Proof
end

