-- ==== Sys2Proof/Laws/PerInstr.lean ====
section
/-! SUPPORT. Statements made per instruction, about its syntax. -/

namespace Sys2Proof.Laws.Op64

/-- An instruction of format OP64 is well formed, its request has 64 wires, and wire i is bit i of its word (R43, R50). -/
def Statement (i : Instr) : Prop :=
  i.wellFormed = true ∧ (Sys2Proof.encode i).length = 64 ∧
    ∀ n, n < 64 → (Sys2Proof.encode i)[n]? = some ((encodeWord i).getLsbD n)

theorem encode (value : Word) : Statement (.encode value) :=
  ⟨rfl, wiresOf_length value, fun _ h => wiresOf_getElem? value h⟩

end Sys2Proof.Laws.Op64
end

