-- ==== Sys2Proof/Laws/Render.lean ====
section
/-! SUPPORT. The laws of the two stages: lengths, the character at each position, and the output space they fill. -/

namespace Sys2Proof.Machine

/-- The shifted mask selects the bit of that number. -/
theorem bitTest_eq_getLsbD (raw : Word) {i : Nat} (h : i < 64) : bitTest raw i = raw.getLsbD i := by
  rw [bitTest, Bool.eq_iff_iff, bne_iff_ne, ne_eq, BitVec.eq_of_getLsbD_eq_iff]
  constructor
  · intro hne
    by_contra hb
    refine hne fun j hj => ?_
    by_cases hji : j = i
    · subst hji; simp [hb]
    · by_cases hlt : j < i
      · simp [hlt]
      · simp [show j - i ≠ 0 by omega]
  · intro hb hall
    have := hall i h
    rw [BitVec.getLsbD_eq_getElem h] at hb
    simp [h, hb] at this

/-- Lane k selects on operand bit `63 - k`. -/
theorem laneCode_eq (c : Config) (raw : Word) {k : Nat} :
    laneCode c raw k = if raw.getLsbD (63 - k) then c.codeOne else c.codeZero := by
  rw [laneCode, bitTest_eq_getLsbD raw (by omega)]

@[simp] theorem render_length (c : Config) (raw : Word) : (render c raw).length = 64 := by simp [render]

@[simp] theorem terminatorLane_length (c : Config) : (terminatorLane c).length = if c.termPresent then 1 else 0 := by
  unfold terminatorLane; split <;> rfl

@[simp] theorem outputChars_length (c : Config) (v : Word) : (outputChars c v).length = positions c := by
  simp [outputChars, positions]

/-- A digit of the output is its lane's character. -/
theorem outputChars_digit (c : Config) (v : Word) {k : Nat} (h : k < 64) :
    (outputChars c v)[k]? = some (laneCode c v k) := by
  rw [outputChars, List.getElem?_append_left (by simpa using h), render, List.getElem?_map,
    List.getElem?_range h]
  rfl

/-- Position 64 of the output is the terminator, when there is one. -/
theorem outputChars_terminator (c : Config) (v : Word) :
    (outputChars c v)[64]? = if c.termPresent then some c.termCode else none := by
  rw [outputChars, List.getElem?_append_right (by simp), render_length, terminatorLane]
  split <;> rfl

/-- The digits of an output are its first 64 characters. -/
theorem outputChars_take (c : Config) (v : Word) : (outputChars c v).take 64 = render c v := by
  simp [outputChars, extract]

/-- What follows the digits of an output is the terminator lane. -/
theorem outputChars_drop (c : Config) (v : Word) : (outputChars c v).drop 64 = terminatorLane c := by
  simp [outputChars]

/-- Everything a read of the stored output can see. -/
theorem read_storeOutput (c : Config) (v : Word) (base x : Nat) (m : Memory) :
    Memory.read (storeChars base (outputChars c v) m) x =
      if x < base ∨ base + positions c ≤ x then Memory.read m x else (outputChars c v)[x - base]? := by
  split
  · exact read_storeChars_outside _ _ (by rwa [outputChars_length])
  · rename_i h
    obtain ⟨k, rfl⟩ : ∃ k, x = base + k := ⟨x - base, by omega⟩
    have hk : k < (outputChars c v).length := by rw [outputChars_length]; omega
    rw [read_storeChars_inside _ _ hk, Nat.add_sub_cancel_left, List.getElem?_eq_getElem hk]

theorem unsettledOut_wf (c : Config) : Memory.wf (unsettledOut c) := storeChars_wf _ _ wf_nil

/-- An unsettled port shows its terminator and nothing else. -/
theorem read_unsettledOut (c : Config) (x : Nat) :
    Memory.read (unsettledOut c) x = if x = 64 ∧ c.termPresent = true then some c.termCode else none := by
  unfold unsettledOut terminatorLane
  by_cases h : c.termPresent = true <;> by_cases hx : x = 64 <;> simp [h, hx, storeChars, Memory.write, read_cons]

end Sys2Proof.Machine
end

