-- ==== Sys2Proof/Laws/State.lean ====
section
/-! SUPPORT. One lemma per field per update of an instance and of the state, so that no proof unfolds a record update. -/

namespace Sys2Proof.Machine

/-! ### Updates of an instance -/

@[simp] theorem drive_config (a : Instance) (v : Word) : (a.drive v).config = a.config := rfl
@[simp] theorem drive_valueI (a : Instance) (v : Word) : (a.drive v).valueI = some v := rfl
@[simp] theorem drive_out (a : Instance) (v : Word) : (a.drive v).out = unsettledOut a.config := rfl
@[simp] theorem drive_buffer (a : Instance) (v : Word) : (a.drive v).buffer = a.buffer := rfl

@[simp] theorem undrive_config (a : Instance) : a.undrive.config = a.config := rfl
@[simp] theorem undrive_valueI (a : Instance) : a.undrive.valueI = none := rfl
@[simp] theorem undrive_out (a : Instance) : a.undrive.out = unsettledOut a.config := rfl
@[simp] theorem undrive_buffer (a : Instance) : a.undrive.buffer = a.buffer := rfl

@[simp] theorem present_config (a : Instance) (v : Word) (b : Option Buffer) : (a.present v b).config = a.config := rfl
@[simp] theorem present_valueI (a : Instance) (v : Word) (b : Option Buffer) : (a.present v b).valueI = some v := rfl
@[simp] theorem present_out (a : Instance) (v : Word) (b : Option Buffer) :
    (a.present v b).out = unsettledOut a.config := rfl
@[simp] theorem present_buffer (a : Instance) (v : Word) (b : Option Buffer) : (a.present v b).buffer = b := rfl

@[simp] theorem deliver_config (a : Instance) (cs : List Byte) : (a.deliver cs).config = a.config := rfl
@[simp] theorem deliver_valueI (a : Instance) (cs : List Byte) : (a.deliver cs).valueI = a.valueI := rfl
@[simp] theorem deliver_out (a : Instance) (cs : List Byte) : (a.deliver cs).out = storeChars 0 cs a.out := rfl
@[simp] theorem deliver_buffer (a : Instance) (cs : List Byte) : (a.deliver cs).buffer = none := rfl

@[simp] theorem fresh_config (c : Config) : (Instance.fresh c).config = c := rfl
@[simp] theorem fresh_valueI (c : Config) : (Instance.fresh c).valueI = none := rfl
@[simp] theorem fresh_out (c : Config) : (Instance.fresh c).out = unsettledOut c := rfl
@[simp] theorem fresh_buffer (c : Config) : (Instance.fresh c).buffer = none := rfl

/-! ### Updates of the state -/

@[simp] theorem unlessInCall_free {a : Instance} (s s' : State) (h : a.buffer = none) : s.unlessInCall a s' = s' := by
  simp [State.unlessInCall, h]

@[simp] theorem unlessInCall_busy {a : Instance} {b : Buffer} (s s' : State) (h : a.buffer = some b) :
    s.unlessInCall a s' = s := by
  simp [State.unlessInCall, h]

/-- Everything a host's action on an operand port can come to. -/
theorem unlessInCall_cases (s : State) (a : Instance) (s' : State) :
    (a.buffer = none ∧ s.unlessInCall a s' = s') ∨ (a.buffer ≠ none ∧ s.unlessInCall a s' = s) := by
  cases h : a.buffer with
  | none => exact .inl ⟨rfl, unlessInCall_free s s' h⟩
  | some b => exact .inr ⟨by simp, unlessInCall_busy s s' h⟩

@[simp] theorem withFetchWord_valueI (s : State) (nbits w : Nat) :
    (s.withFetchWord nbits w).current.valueI = some (tableWord nbits w) := rfl
@[simp] theorem withFetchWord_config (s : State) (nbits w : Nat) :
    (s.withFetchWord nbits w).current.config = s.current.config := rfl
@[simp] theorem withFetchWord_buffer (s : State) (nbits w : Nat) :
    (s.withFetchWord nbits w).current.buffer = s.current.buffer := rfl
@[simp] theorem withFetchWord_waiting (s : State) (nbits w : Nat) : (s.withFetchWord nbits w).waiting = s.waiting := rfl
@[simp] theorem withFetchWord_idle (s : State) (nbits w : Nat) : (s.withFetchWord nbits w).idle = s.idle := rfl
@[simp] theorem withFetchWord_mem (s : State) (nbits w : Nat) : (s.withFetchWord nbits w).mem = s.mem := rfl

/-- Everything the end of a step does to the schedule. -/
theorem finish_cases (s : State) (a : Instance) :
    (s.waiting = [] ∧ s.finish a = { s with current := a }) ∨
    (∃ b rest, s.waiting = b :: rest ∧
      s.finish a = { s with current := b, waiting := rest, idle := a :: s.idle }) := by
  cases h : s.waiting with
  | nil => exact .inl ⟨rfl, by simp [State.finish, h]⟩
  | cons b rest => exact .inr ⟨b, rest, rfl, by simp [State.finish, h]⟩

@[simp] theorem finish_mem (s : State) (a : Instance) : (s.finish a).mem = s.mem := by
  rcases finish_cases s a with ⟨_, h⟩ | ⟨_, _, _, h⟩ <;> rw [h]

/-- The end of a step exchanges the current instance and keeps every other one. -/
theorem finish_instances_perm (s : State) (a : Instance) :
    List.Perm (s.finish a).instances (a :: (s.waiting ++ s.idle)) := by
  rcases finish_cases s a with ⟨hw, h⟩ | ⟨b, rest, hw, h⟩
  · rw [h]; exact List.Perm.refl _
  · rw [h, hw]
    simp only [State.instances, List.cons_append]
    exact (List.Perm.cons b List.perm_middle).trans (List.Perm.swap a b _)

/-- Everything that bringing an invocation into flight does to the schedule. -/
theorem enqueue_cases (s : State) (a : Instance) :
    (s.current.valueI = none ∧ s.enqueue a = { s with current := a, idle := s.current :: s.idle }) ∨
    (s.current.valueI ≠ none ∧ s.enqueue a = { s with waiting := s.waiting ++ [a] }) := by
  cases h : s.current.valueI with
  | none => exact .inl ⟨rfl, by simp [State.enqueue, h]⟩
  | some v => exact .inr ⟨by simp, by simp [State.enqueue, h]⟩

@[simp] theorem enqueue_mem (s : State) (a : Instance) : (s.enqueue a).mem = s.mem := by
  rcases enqueue_cases s a with ⟨_, h⟩ | ⟨_, h⟩ <;> rw [h]

end Sys2Proof.Machine
end

