-- ==== Sys2Proof/Laws/Step.lean ====
section
/-! SUPPORT. Everything one invocation can do: the cases of a step, the sharing test, and what a sound port holds afterwards. -/

namespace Sys2Proof.Machine

/-! ### Sharing -/

/-- The overlap test finds exactly the buffers with a byte in common. -/
theorem overlaps_iff (b b' : Buffer) : b.overlaps b' = true ↔ b.ShareByte b' := by
  simp only [Buffer.overlaps, Buffer.ShareByte, decide_eq_true_eq]
  constructor
  · intro h; exact ⟨max b.base b'.base, by omega⟩
  · rintro ⟨x, h1, h2⟩; omega

theorem shareByte_comm {b b' : Buffer} (h : b.ShareByte b') : b'.ShareByte b :=
  let ⟨x, h1, h2⟩ := h
  ⟨x, h2, h1⟩

/-- An instance claims a buffer when its own shares a byte with it. -/
theorem claims_iff (a : Instance) (b : Buffer) :
    a.claims b = true ↔ ∃ b', a.buffer = some b' ∧ b.ShareByte b' := by
  unfold Instance.claims
  cases h : a.buffer with
  | none => simp
  | some b' => simp only [overlaps_iff, Option.some.injEq, exists_eq_left']; exact ⟨shareByte_comm, shareByte_comm⟩

/-! ### The cases of an invocation -/

/-- The port form completes in every state. -/
theorem execEncode_port {s : State} (v : Word) (h : s.current.buffer = none) :
    exec (.encode v) s = .next (s.finish (s.current.deliver (outputChars s.current.config v))) := by
  simp [exec, execEncode, h]

/-- Everything the buffer form can do. -/
theorem execEncode_buffer {s : State} (v : Word) {b : Buffer} (h : s.current.buffer = some b) :
    (b.size < positions s.current.config ∧ exec (.encode v) s = .refused .bufferTooShort) ∨
    (positions s.current.config ≤ b.size ∧ (∃ a ∈ s.waiting, a.claims b = true) ∧
      exec (.encode v) s = .refused .sharedBuffer) ∨
    (positions s.current.config ≤ b.size ∧ (∀ a ∈ s.waiting, a.claims b = false) ∧
      exec (.encode v) s =
        .next ({ s with mem := storeChars b.base (outputChars s.current.config v) s.mem }.finish
          (s.current.deliver (outputChars s.current.config v)))) := by
  simp only [exec, execEncode, h, encodeToBuffer, outputChars_length]
  by_cases hs : b.size < positions s.current.config
  · exact .inl ⟨hs, by rw [if_pos hs]⟩
  · rw [if_neg hs]
    by_cases hc : s.waiting.any (fun a => a.claims b) = true
    · exact .inr (.inl ⟨by omega, List.any_eq_true.mp hc, by rw [if_pos hc]⟩)
    · refine .inr (.inr ⟨by omega, fun a ha => ?_, by rw [if_neg hc]⟩)
      by_contra hne
      exact hc (List.any_eq_true.mpr ⟨a, ha, by simpa using hne⟩)

/-- Everything a completed invocation can have done: which memory it left, and that the turn passed on. -/
theorem exec_next_cases {s t : State} {v : Word} (h : exec (.encode v) s = .next t) :
    (s.current.buffer = none ∧
      t = s.finish (s.current.deliver (outputChars s.current.config v))) ∨
    (∃ b, s.current.buffer = some b ∧ positions s.current.config ≤ b.size ∧
      (∀ a ∈ s.waiting, a.claims b = false) ∧
      t = { s with mem := storeChars b.base (outputChars s.current.config v) s.mem }.finish
        (s.current.deliver (outputChars s.current.config v))) := by
  cases hb : s.current.buffer with
  | none => rw [execEncode_port v hb] at h; cases h; exact .inl ⟨rfl, rfl⟩
  | some b =>
    rcases execEncode_buffer v hb with ⟨_, he⟩ | ⟨_, _, he⟩ | ⟨h1, h2, he⟩
    · rw [he] at h; cases h
    · rw [he] at h; cases h
    · rw [he] at h; cases h; exact .inr ⟨b, rfl, h1, h2, rfl⟩

/-- A step of a driven instance is the invocation with its operand. -/
theorem step_driven {s : State} {v : Word} (h : s.current.valueI = some v) : step s = exec (.encode v) s := by
  simp [step, h, decodeWord]

theorem step_undriven {s : State} (h : s.current.valueI = none) : step s = .refused .operandUndriven := by
  simp [step, h]

/-! ### Sound ports -/

theorem settledOut_wf (c : Config) (v : Word) : Memory.wf (settledOut c v) := storeChars_wf _ _ wf_nil

/-- A settled port shows the output's characters and nothing else. -/
theorem read_settledOut (c : Config) (v : Word) (k : Nat) : Memory.read (settledOut c v) k = (outputChars c v)[k]? := by
  rw [settledOut, read_storeOutput, Nat.sub_zero]
  split
  · rename_i h
    rw [read_nil, List.getElem?_eq_none (by rw [outputChars_length]; omega)]
  · rfl

/-- A port that lists nothing beyond its L positions is settled on the operand after the invocation. -/
theorem deliver_settles {c : Config} {m : Memory} (v : Word) (hm : Memory.wf m)
    (h : ∀ x, positions c ≤ x → Memory.read m x = none) :
    storeChars 0 (outputChars c v) m = settledOut c v := by
  refine memory_ext (storeChars_wf _ _ hm) (settledOut_wf c v) fun x => ?_
  rw [read_storeOutput, read_settledOut, Nat.sub_zero]
  split
  · rename_i hx
    rw [h x (by omega), List.getElem?_eq_none (by rw [outputChars_length]; omega)]
  · rfl

/-- A sound port has its canonical form and lists nothing beyond its L positions. -/
theorem outSound_space {a : Instance} (h : a.OutSound) :
    Memory.wf a.out ∧ ∀ x, positions a.config ≤ x → Memory.read a.out x = none := by
  rcases h with h | ⟨v, _, h⟩
  · rw [h]
    refine ⟨unsettledOut_wf _, fun x hx => ?_⟩
    rw [read_unsettledOut, if_neg]
    rintro ⟨rfl, ht⟩
    simp [positions, ht] at hx
  · rw [h]
    refine ⟨settledOut_wf _ _, fun x hx => ?_⟩
    rw [read_settledOut, List.getElem?_eq_none (by rwa [outputChars_length])]

/-- After the invocation a sound port is settled on the operand. -/
theorem deliver_out_of_sound {a : Instance} (v : Word) (h : a.OutSound) :
    (a.deliver (outputChars a.config v)).out = settledOut a.config v :=
  deliver_settles v (outSound_space h).1 (outSound_space h).2

/-- Everything an invocation does to a sound instance: its port is settled, its call is over. -/
theorem deliver_of_sound {a : Instance} (v : Word) (h : a.OutSound) :
    a.deliver (outputChars a.config v) = { a with out := settledOut a.config v, buffer := none } := by
  have ho := deliver_out_of_sound v h
  rw [deliver_out] at ho
  rw [Instance.deliver, ho]

/-- What the rules say of a position is what the meaning's characters hold there. -/
theorem outputAt_eq (c : Config) (v : Word) (k : Nat) : outputAt c v k = (outputChars c v)[k]? := by
  unfold outputAt
  split
  · rename_i h; rw [outputChars_digit _ _ h, laneCode_eq]
  · split
    · rename_i h; rw [h.1, outputChars_terminator, if_pos h.2]
    · by_cases hk : k = 64
      · subst hk; rw [outputChars_terminator]; simp_all
      · rw [List.getElem?_eq_none]
        rw [outputChars_length, positions]
        split <;> omega

/-! ### Instances the host has presented an operand on, and runs -/

/-- Presenting an operand makes an instance with admissible parameters sound. -/
theorem present_inv (a : Instance) (v : Word) (b : Option Buffer) (h : a.config.admissible = true) :
    (a.present v b).Inv :=
  ⟨h, .inl rfl, fun _ => by simp⟩

/-- The current instance of a sound machine is sound. -/
theorem current_inv {s : State} (h : s.Inv) : s.current.Inv := h.instancesInv _ List.mem_cons_self

/-- A run goes on from the state its first step leaves. -/
theorem run_succ (M : Host.Core) {s t : M.State} (n : Nat) (h : M.step s = .next t) : M.run (n + 1) s = M.run n t := by
  simp [Host.Core.run, h]

end Sys2Proof.Machine
end

