-- ==== Sys2Proof/Tests/Slice0.lean ====
section
/-! SUPPORT. The model's own tests.  Expected values are those of spec/95_test_vectors.md, named with their ids, or worked
out by hand from the rules.  The last part shows, for each obligation with hypotheses, inputs that meet them. -/

namespace Sys2Proof.Tests

open Sys2Proof Sys2Proof.Machine

/-! ### Ill-formed terms are refused -/

/-- No instruction is ill formed (R50). -/
theorem test_every_operand_legal : (Instr.encode 0x7FF4DEADBEEF0001#64).wellFormed = true := by decide

theorem test_equal_digit_codes_refused :
    ({ Config.portDefault with codeOne := 0x30#8 } : Config).digitsDiffer = false ∧
    ({ Config.portDefault with codeOne := 0x30#8 } : Config).admissible = false := by decide

theorem test_terminator_like_zero_refused :
    ({ Config.harnessDefault with termCode := 0x30#8 } : Config).terminatorDiffers = false ∧
    ({ Config.harnessDefault with termCode := 0x30#8 } : Config).admissible = false := by decide

theorem test_terminator_like_one_refused :
    ({ Config.harnessDefault with termCode := 0x31#8 } : Config).terminatorDiffers = false ∧
    ({ Config.harnessDefault with termCode := 0x31#8 } : Config).admissible = false := by decide

theorem test_defaults_admissible :
    Config.portDefault.admissible = true ∧ Config.harnessDefault.admissible = true := by decide

/-! ### Decoding: requests written out from the format OP64 (R43), field by field, bit 63 first -/

/-- V4: sign 1, exponent 01111111111, mantissa 0. -/
theorem test_decode_written_minus_one :
    decode ([true] ++ ([false] ++ List.replicate 10 true) ++ List.replicate 52 false).reverse =
      .ok (.encode 0xBFF0000000000000#64) := by rfl

/-- V22: only bit 32 set; the 33rd wire counted from `value_i[0]`. -/
theorem test_decode_written_bit_32 :
    decode (List.replicate 32 false ++ [true] ++ List.replicate 31 false) = .ok (.encode 0x0000000100000000#64) := by rfl

/-- Shorter and longer requests are no requests (R51). -/
theorem test_decode_other_lengths :
    decode (List.replicate 32 true) = .error (.tooFewWires 32) ∧
    decode (List.replicate 65 true) = .error (.tooManyWires 65) := ⟨rfl, rfl⟩

/-- The table's own numbering: bit 0 least significant, bits above `nbits` zero (V5, V9). -/
theorem test_decode_table_word :
    decodeTableWord 64 0x40091EB851EB851F = some (.encode 0x40091EB851EB851F#64) ∧
    decodeTableWord 1 3 = some (.encode 1#64) := ⟨rfl, rfl⟩

/-! ### Single functions -/

/-- B1, B2, B6, B7, B16: the mask is 64 bits wide. -/
theorem test_bit :
    bitTest 0x8000000000000000#64 63 = true ∧ bitTest 0x8000000000000000#64 62 = false ∧
    bitTest 0x0000000100000000#64 32 = true ∧ bitTest 0x0000000100000000#64 31 = false ∧
    bitTest 0x40091EB851EB851F#64 5 = false := by decide

/-- X3: EXTRACT takes the pattern of 3.14 and not the integer 3. -/
theorem test_extract : extract 0x40091EB851EB851F#64 = 0x40091EB851EB851F#64 := by decide

/-- T1, and a sequence DECODE is not defined on. -/
theorem test_decode_string :
    decodeString Config.portDefault (0x31#8 :: List.replicate 63 0x30#8) = some 0x8000000000000000#64 ∧
    decodeString Config.portDefault (List.replicate 64 0x32#8) = none := ⟨rfl, rfl⟩

/-- The labels of V10, V11, V13 and V16 (R60). -/
theorem test_value_class :
    valueClass 0x000FFFFFFFFFFFFF#64 = .subnormal ∧ valueClass 0x0010000000000000#64 = .normal ∧
    valueClass 0x7FF0000000000000#64 = .infinite ∧ valueClass 0x7FF4DEADBEEF0001#64 = .nan := by decide

/-! ### One step -/

/-- The state a step answers. -/
def next? (o : Host.Outcome State Fault Refusal) : Option State :=
  match o with
  | .next t => some t
  | _ => none

/-- O4: the bus for 3.14, from the state after reset with the operand presented. -/
theorem test_step_bus_of_3_14 :
    ((next? (step (State.reset.withFetchWord 64 0x40091EB851EB851F))).bind
      (fun t => t.current.outBus.map (fun b => b.toNat))) =
    some 0x31313131313030303130313030303031313130313031313131303030313031303030303131313031303131313130303031303031303030303030303030303130 := by
  decide +kernel

/-- P1: the harness's call with poisoned buffer edges at B = 16: 65 bytes as in O5, the bytes at B-1 and B+65 kept. -/
theorem test_step_harness_buffer :
    ((next? (step { current := (Instance.fresh Config.harnessDefault).present 0x40091EB851EB851F#64 (some ⟨16, 65⟩),
                    waiting := [], idle := [],
                    mem := [(15, 0x55#8), (16, 0xAA#8), (80, 0xAA#8), (81, 0x55#8)] })).map
      (fun t => ((readChars t.mem 16 65).map packBus, Memory.read t.mem 15, Memory.read t.mem 81))) =
    some (some 0x0031313131313030303130313030303031313130313031313131303030313031303030303131313031303131313130303031303031303030303030303030303130,
      some 0x55#8, some 0x55#8) := by
  decide +kernel

/-! ### Inputs that meet the hypotheses of the obligations -/

/-- One instance with parameters `c` on which `v` has been presented, in the port form. -/
def portState (c : Config) (v : Word) : State :=
  { current := (Instance.fresh c).present v none, waiting := [], idle := [], mem := [] }

/-- Two harness calls in flight, with buffers that touch and do not overlap: 16 to 80 and 81 to 145. -/
def twoCalls : State :=
  { current := (Instance.fresh Config.harnessDefault).present 0#64 (some ⟨16, 65⟩),
    waiting := [(Instance.fresh Config.harnessDefault).present 0x8000000000000000#64 (some ⟨81, 65⟩)],
    idle := [], mem := [(15, 0x55#8)] }

/-- The same two calls in the other order. -/
def twoCallsSwapped : State :=
  { twoCalls with
    current := (Instance.fresh Config.harnessDefault).present 0x8000000000000000#64 (some ⟨81, 65⟩),
    waiting := [(Instance.fresh Config.harnessDefault).present 0#64 (some ⟨16, 65⟩)] }

/-- Two harness calls whose buffers share one byte, 80. -/
def sharingCalls : State :=
  { twoCalls with waiting := [(Instance.fresh Config.harnessDefault).present 0#64 (some ⟨80, 65⟩)] }

theorem portState_inv {c : Config} (v : Word) (h : c.admissible = true) : (portState c v).Inv where
  memWf := wf_nil
  instancesInv := by
    intro a ha
    simp only [State.instances, portState, List.append_nil, List.mem_singleton] at ha
    exact ha ▸ present_inv (Instance.fresh c) v none h
  waitingDriven := by simp [portState]
  turnDriven := by simp [portState]
  idleNoCall := by simp [portState]

/-- A machine of two presented instances is sound. -/
theorem twoInstances_inv (a b : Instance) (ha : a.Inv) (hb : b.Inv) (hav : a.valueI ≠ none) (hbv : b.valueI ≠ none) :
    State.Inv { current := a, waiting := [b], idle := [], mem := [(15, 0x55#8)] } where
  memWf := wf_cons.mpr ⟨by simp, wf_nil⟩
  instancesInv := by
    intro x hx
    simp only [State.instances, List.append_nil, List.mem_cons, List.not_mem_nil, or_false] at hx
    rcases hx with rfl | rfl
    · exact ha
    · exact hb
  waitingDriven := by simpa using hbv
  turnDriven := fun _ => hav
  idleNoCall := by simp

theorem twoCalls_inv : twoCalls.Inv :=
  twoInstances_inv _ _ (present_inv _ _ _ (by decide)) (present_inv _ _ _ (by decide)) (by simp) (by simp)

theorem twoCallsSwapped_inv : twoCallsSwapped.Inv :=
  twoInstances_inv _ _ (present_inv _ _ _ (by decide)) (present_inv _ _ _ (by decide)) (by simp) (by simp)

theorem touching_buffers_share_nothing : ¬ Buffer.ShareByte ⟨16, 65⟩ ⟨81, 65⟩ := by
  rw [← overlaps_iff]; decide

/-- `StepRunsTheDecodedRequest`: a driven port whose wires decode, and an undriven one. -/
theorem witness_request :
    (portState Config.portDefault 5#64).current.valueI = some 5#64 ∧ decode (wiresOf 5#64) = .ok (.encode 5#64) ∧
    State.reset.current.valueI = none := ⟨rfl, rfl, rfl⟩

/-- `DecodeEncodeRoundTrip`: requests of 63, 64 and 65 wires. -/
theorem witness_round_trip :
    (Instr.encode 0#64).wellFormed = true ∧ decode (List.replicate 64 true) = .ok (.encode 0xFFFFFFFFFFFFFFFF#64) ∧
    (List.replicate 63 true).length < 64 ∧ 64 < (List.replicate 65 true).length := ⟨rfl, rfl, by simp, by simp⟩

/-- `EncodeFillsTheOutput`, `BusPacksCharacters`, `SegmentsRenderTheFields`, `DigitStringShape`, `SignedZerosAreDistinct`,
`BitLocality`, `DigitsAreTheNumeral`, `StepOutputDecodesToOperand`, `DigitsUnspecifiedUntilTheStep`, `ResetAndPowerCycleLoseNothing`: the port form, without
and with a terminator. -/
theorem witness_port_form :
    ((portState Config.portDefault 5#64).Inv ∧ (portState Config.portDefault 5#64).current.buffer = none ∧
      (portState Config.portDefault 5#64).current.valueI = some 5#64) ∧
    ((portState Config.harnessDefault 5#64).Inv ∧ (portState Config.harnessDefault 5#64).current.buffer = none ∧
      (portState Config.harnessDefault 5#64).current.config.termPresent = true) :=
  ⟨⟨portState_inv _ (by decide), rfl, rfl⟩, ⟨portState_inv _ (by decide), rfl, rfl⟩⟩

/-- `DefaultCodesDriveOneWire`: the default codes. -/
theorem witness_default_codes :
    (portState Config.portDefault 5#64).Inv ∧ (portState Config.portDefault 5#64).current.buffer = none ∧
    (portState Config.portDefault 5#64).current.config.codeZero = 0x30#8 ∧
    (portState Config.portDefault 5#64).current.config.codeOne = 0x31#8 :=
  ⟨portState_inv _ (by decide), rfl, rfl, rfl⟩

/-- `LaneOrderUnobservable`: the document's order, 63 down to 0. -/
theorem witness_lane_order :
    (portState Config.portDefault 5#64).Inv ∧ (portState Config.portDefault 5#64).current.buffer = none ∧
    (List.range 64).reverse.Perm (List.range 64) :=
  ⟨portState_inv _ (by decide), rfl, List.reverse_perm _⟩

/-- `EncodeDecodeBijection`: an admissible configuration, a digit string, and sequences of a wrong length and alphabet. -/
theorem witness_bijection :
    Config.portDefault.admissible = true ∧ (List.replicate 64 0x31#8).length = 64 ∧
    (∀ ch ∈ List.replicate 64 0x31#8, ch = Config.portDefault.codeZero ∨ ch = Config.portDefault.codeOne) ∧
    (List.replicate 63 0x31#8).length ≠ 64 ∧
    (∃ ch ∈ List.replicate 64 0x00#8, ch ≠ Config.portDefault.codeZero ∧ ch ≠ Config.portDefault.codeOne) := by
  refine ⟨by decide, by simp, fun ch h => .inr (List.eq_of_mem_replicate h), by simp, 0x00#8, ?_, by decide, by decide⟩
  exact List.mem_replicate.mpr ⟨by decide, rfl⟩

/-- `BufferFormWritesTheBuffer`, `StepKeepsTheRest`: a call with exactly L bytes beside another in flight. -/
theorem witness_buffer_form :
    twoCalls.Inv ∧ twoCalls.current.buffer = some ⟨16, 65⟩ ∧ positions twoCalls.current.config = 65 ∧
    (∀ a ∈ twoCalls.waiting, ∀ b', a.buffer = some b' → ¬ Buffer.ShareByte ⟨16, 65⟩ b') ∧
    ∃ t, exec (.encode 0#64) twoCalls = .next t := by
  refine ⟨twoCalls_inv, rfl, rfl, ?_, _, rfl⟩
  intro a ha b' hb
  simp only [twoCalls, List.mem_singleton] at ha
  subst ha
  cases hb
  exact touching_buffers_share_nothing

/-- A call of 64 bytes on an instance without a terminator. -/
def callWithoutTerminator : State :=
  { State.reset with current := (Instance.fresh Config.portDefault).present 5#64 (some ⟨16, 64⟩) }

theorem callWithoutTerminator_inv : callWithoutTerminator.Inv where
  memWf := wf_nil
  instancesInv := by
    intro a ha
    simp only [State.instances, callWithoutTerminator, State.reset, List.append_nil, List.mem_singleton] at ha
    exact ha ▸ present_inv (Instance.fresh Config.portDefault) 5#64 (some ⟨16, 64⟩) (by decide)
  waitingDriven := by simp [callWithoutTerminator, State.reset]
  turnDriven := by simp [callWithoutTerminator, State.reset]
  idleNoCall := by simp [callWithoutTerminator, State.reset]

/-- `BufferFormWritesTheBuffer`, without a terminator: a buffer of exactly 64 bytes, no other call in flight. -/
theorem witness_buffer_form_without_terminator :
    callWithoutTerminator.Inv ∧ callWithoutTerminator.current.buffer = some ⟨16, 64⟩ ∧
    positions callWithoutTerminator.current.config = 64 ∧
    callWithoutTerminator.current.config.termPresent = false ∧ callWithoutTerminator.waiting = [] :=
  ⟨callWithoutTerminator_inv, rfl, rfl, rfl, rfl⟩

/-- `DecodeIgnoresOnlyATerminator`: nothing, the terminator, and another character behind 64 digits. -/
theorem witness_behind_the_digits :
    (List.replicate 64 0x30#8).length = 64 ∧ Config.harnessDefault.termPresent = true ∧
    Config.harnessDefault.termCode = 0x00#8 ∧ [0x30#8] ≠ [Config.harnessDefault.termCode] :=
  ⟨by simp, rfl, rfl, by decide⟩

/-- `ShortBufferRefused`: one byte too few, with a terminator (64 of 65) and without (63 of 64). -/
theorem witness_short_buffer :
    (∃ s : State, s.current.buffer = some ⟨0, 64⟩ ∧ 64 < if s.current.config.termPresent then 65 else 64) ∧
    (∃ s : State, s.current.buffer = some ⟨0, 63⟩ ∧ 63 < if s.current.config.termPresent then 65 else 64) :=
  ⟨⟨{ State.reset with current := (Instance.fresh Config.harnessDefault).present 0#64 (some ⟨0, 64⟩) }, rfl, by decide⟩,
   ⟨{ State.reset with current := (Instance.fresh Config.portDefault).present 0#64 (some ⟨0, 63⟩) }, rfl, by decide⟩⟩

/-- `SharedBufferRefused`: two buffers with one byte in common; and a state in the port form. -/
theorem witness_shared_buffer :
    sharingCalls.current.buffer = some ⟨16, 65⟩ ∧ positions sharingCalls.current.config ≤ 65 ∧
    (∃ a ∈ sharingCalls.waiting, ∃ b', a.buffer = some b' ∧ Buffer.ShareByte ⟨16, 65⟩ b') ∧
    (portState Config.portDefault 0#64).current.buffer = none :=
  ⟨rfl, by decide, ⟨_, List.mem_singleton.mpr rfl, ⟨80, 65⟩, rfl, 80, by decide, by decide⟩, rfl⟩

theorem portState_duty (c : Config) (v : Word) : (portState c v).HostDuty :=
  ⟨by simp [portState], by simp [portState], by simp [portState]⟩

theorem twoCalls_scheduleDuty : twoCalls.ScheduleDuty where
  operands := by simp [twoCalls]
  bufferSizes := by
    intro a ha b hb
    simp only [twoCalls, List.mem_cons, List.not_mem_nil, or_false] at ha
    rcases ha with rfl | rfl <;> cases hb <;> decide
  ownBuffers := by
    simp only [twoCalls, List.pairwise_cons, List.mem_singleton]
    refine ⟨fun a ha b b' hb hb' => ?_, by simp, List.Pairwise.nil⟩
    subst ha
    cases hb
    cases hb'
    exact touching_buffers_share_nothing

theorem twoCalls_duty : twoCalls.HostDuty where
  operand := by simp [twoCalls]
  bufferSize := twoCalls_scheduleDuty.bufferSizes _ List.mem_cons_self
  ownBuffer := fun b hb a ha b' hb' =>
    (List.pairwise_cons.mp twoCalls_scheduleDuty.ownBuffers).1 a ha b b' hb hb'

/-- `CallInFlightIsNotCancelled`, `WaitingInvocationsStayInFlight`, `HostEventKeepsInvariant`: a call in flight beside another, an action of the host
on its port, and the duty done. -/
theorem witness_call_in_flight :
    twoCalls.Inv ∧ twoCalls.current.buffer = some ⟨16, 65⟩ ∧ twoCalls.current.valueI = some 0#64 ∧ twoCalls.waiting ≠ [] ∧
    (HostEvent.present 7#64 none).apply twoCalls = twoCalls ∧ HostEvent.undrive.apply twoCalls = twoCalls ∧
    (HostEvent.undrive.apply twoCalls).HostDuty :=
  ⟨twoCalls_inv, rfl, rfl, by simp [twoCalls], rfl, rfl, twoCalls_duty⟩

/-- `OutputDependsOnOperandOnly`: two states with one operand and one configuration that differ in all the rest. -/
theorem witness_same_operand :
    twoCalls.Inv ∧ (portState Config.harnessDefault 0#64).Inv ∧ twoCalls.HostDuty ∧
    (portState Config.harnessDefault 0#64).HostDuty ∧ twoCalls.current.valueI = some 0#64 ∧
    (portState Config.harnessDefault 0#64).current.valueI = some 0#64 ∧
    twoCalls.current.config = (portState Config.harnessDefault 0#64).current.config :=
  ⟨twoCalls_inv, portState_inv _ (by decide), twoCalls_duty, portState_duty _ _, rfl, rfl, rfl⟩

/-- `SecondInvocationChangesNothing`, `SuccessiveOperandsAreIndependent`, `StepKeepsInvariant`,
`ConfigurationNeverChanges`: a step that completes with no other invocation in flight. -/
theorem witness_completed_step :
    (portState Config.portDefault 5#64).Inv ∧ (portState Config.portDefault 5#64).waiting = [] ∧
    ∃ t, step (portState Config.portDefault 5#64) = .next t := ⟨portState_inv _ (by decide), rfl, _, rfl⟩

/-- `ConfigurationNeverChanges`, `HostEventKeepsInvariant`: an event other than `invoke`, and an admissible `invoke`. -/
theorem witness_host_event :
    (∀ c v b, HostEvent.reuse 0 5#64 none ≠ .invoke c v b) ∧ (portState Config.portDefault 5#64).Inv ∧
    (HostEvent.invoke Config.harnessDefault 5#64 (some ⟨0, 65⟩)).admissible = true :=
  ⟨fun _ _ _ => by simp, portState_inv _ (by decide), by decide⟩

/-- `StepCompletesIffHostDuty`: each of the three refusals happens. -/
theorem witness_refusals :
    step State.reset = .refused .operandUndriven ∧
    step { State.reset with current := (Instance.fresh Config.harnessDefault).present 0#64 (some ⟨0, 64⟩) } =
      .refused .bufferTooShort ∧
    step sharingCalls = .refused .sharedBuffer := ⟨rfl, rfl, rfl⟩

/-- `EveryScheduleGivesOwnOutputs`: two calls in flight, in either order. -/
theorem witness_schedules :
    twoCalls.Inv ∧ twoCallsSwapped.Inv ∧ twoCalls.ScheduleDuty ∧
    (twoCallsSwapped.current :: twoCallsSwapped.waiting).Perm (twoCalls.current :: twoCalls.waiting) ∧
    twoCallsSwapped.idle = twoCalls.idle ∧ twoCallsSwapped.mem = twoCalls.mem :=
  ⟨twoCalls_inv, twoCallsSwapped_inv, twoCalls_scheduleDuty, List.Perm.swap _ _ _, rfl, rfl⟩

/-- `FetchWordIsRunNext`: a row's word that decodes. -/
theorem witness_fetch_word : decodeTableWord 64 5 = some (.encode 5#64) := rfl

end Sys2Proof.Tests
end

/-! ## Proofs: the state, its invariant, and what a step and the host keep -/

namespace Sys2Proof.Machine

/-! ### What a step does, in one equation -/

/-- The host's memory after the current instance's invocation with operand `v` (R36). -/
def State.memAfter (s : State) (v : Word) : Memory :=
  match s.current.buffer with
  | none => s.mem
  | some b => storeChars b.base (outputChars s.current.config v) s.mem

theorem memAfter_port {s : State} (v : Word) (h : s.current.buffer = none) : s.memAfter v = s.mem := by
  simp [State.memAfter, h]

theorem memAfter_buffer {s : State} (v : Word) {b : Buffer} (h : s.current.buffer = some b) :
    s.memAfter v = storeChars b.base (outputChars s.current.config v) s.mem := by
  simp [State.memAfter, h]

theorem memAfter_wf {s : State} (v : Word) (h : Memory.wf s.mem) : Memory.wf (s.memAfter v) := by
  cases hb : s.current.buffer with
  | none => rwa [memAfter_port v hb]
  | some b => rw [memAfter_buffer v hb]; exact storeChars_wf _ _ h

/-- The one state in which a completed invocation can leave the machine, whichever its form. -/
theorem eq_finish_of_exec_next {s t : State} {v : Word} (h : exec (.encode v) s = .next t) :
    t = { s with mem := s.memAfter v }.finish (s.current.deliver (outputChars s.current.config v)) := by
  rcases exec_next_cases h with ⟨hb, ht⟩ | ⟨b, hb, _, _, ht⟩
  · rw [ht, memAfter_port v hb]
  · rw [ht, memAfter_buffer v hb]

/-- A completed step had an operand, and left the one state that the invocation with it leaves. -/
theorem step_next_inv {s t : State} (h : step s = .next t) :
    ∃ v, s.current.valueI = some v ∧
      t = { s with mem := s.memAfter v }.finish (s.current.deliver (outputChars s.current.config v)) := by
  cases hv : s.current.valueI with
  | none => rw [step_undriven hv] at h; cases h
  | some v => exact ⟨v, rfl, eq_finish_of_exec_next (step_driven hv ▸ h)⟩

/-- With no other invocation in flight the instance that took its step stays current (log 7). -/
theorem finish_of_waiting_nil {s : State} (a : Instance) (h : s.waiting = []) :
    s.finish a = { s with current := a } := by
  simp [State.finish, h]

/-! ### The invariant through one invocation -/

/-- An invocation leaves its instance sound: its port is settled and no call is in flight on it. -/
theorem deliver_inv {a : Instance} {v : Word} (h : a.Inv) (hv : a.valueI = some v) :
    (a.deliver (outputChars a.config v)).Inv where
  admissible := h.admissible
  outSound := .inr ⟨v, hv, deliver_out_of_sound v h.outSound⟩
  callDriven := by simp

/-- A port that has settled shows `ENCODE` of the operand, position by position (R28, R62, R66). -/
theorem read_deliver_of_sound {a : Instance} (v : Word) (h : a.OutSound) (k : Nat) :
    Memory.read (a.deliver (outputChars a.config v)).out k = outputAt a.config v k := by
  rw [deliver_out_of_sound v h, read_settledOut, outputAt_eq]

/-- Delivering the same operand again changes nothing. -/
theorem deliver_deliver {a : Instance} {v : Word} (h : a.Inv) (hv : a.valueI = some v) :
    (a.deliver (outputChars a.config v)).deliver (outputChars a.config v) =
      a.deliver (outputChars a.config v) := by
  have again := deliver_of_sound v (deliver_inv h hv).outSound
  rw [deliver_config] at again
  rw [again, deliver_of_sound v h.outSound]

theorem withMem_inv {s : State} {m : Memory} (h : s.Inv) (hm : Memory.wf m) : State.Inv { s with mem := m } :=
  ⟨hm, h.instancesInv, h.waitingDriven, h.turnDriven, h.idleNoCall⟩

/-- Passing the turn keeps the invariant, if the instance that gives it up is sound and has no call in flight. -/
theorem finish_inv {s : State} {a : Instance} (h : s.Inv) (ha : a.Inv) (hb : a.buffer = none) : (s.finish a).Inv where
  memWf := by rw [finish_mem]; exact h.memWf
  instancesInv := by
    intro x hx
    rcases List.mem_cons.mp ((finish_instances_perm s a).mem_iff.mp hx) with rfl | hx
    · exact ha
    · exact h.instancesInv x (List.mem_cons_of_mem _ hx)
  waitingDriven := by
    rcases finish_cases s a with ⟨_, he⟩ | ⟨b, rest, hw, he⟩ <;> rw [he]
    · exact h.waitingDriven
    · exact fun x hx => h.waitingDriven x (hw ▸ List.mem_cons_of_mem b hx)
  turnDriven := by
    rcases finish_cases s a with ⟨hw, he⟩ | ⟨b, rest, hw, he⟩ <;> rw [he]
    · exact fun hne => absurd hw hne
    · exact fun _ => h.waitingDriven b (hw ▸ List.mem_cons_self)
  idleNoCall := by
    rcases finish_cases s a with ⟨_, he⟩ | ⟨b, rest, _, he⟩ <;> rw [he]
    · exact h.idleNoCall
    · exact List.forall_mem_cons.mpr ⟨hb, h.idleNoCall⟩

theorem step_inv {s t : State} (h : s.Inv) (hst : step s = .next t) : t.Inv := by
  obtain ⟨v, hv, rfl⟩ := step_next_inv hst
  exact finish_inv (withMem_inv h (memAfter_wf v h.memWf)) (deliver_inv (current_inv h) hv) rfl

/-- Settles O25: the turn passes from an instance that its invocation has left sound. -/
theorem stepKeepsInvariant : Obligations.StepKeepsInvariant := fun _ _ h hst => step_inv h hst

theorem reset_inv : State.reset.Inv where
  memWf := wf_nil
  instancesInv := by
    intro a ha
    obtain rfl : a = Instance.reset := by simpa [State.instances, State.reset] using ha
    exact ⟨by decide, .inl rfl, by simp [Instance.reset]⟩
  waitingDriven := by simp [State.reset]
  turnDriven := by simp [State.reset]
  idleNoCall := by simp [State.reset]

/-- Settles O27: nothing is driven, so the one port is unsettled and no call is in flight. -/
theorem resetMeetsInvariant : Obligations.ResetMeetsInvariant := reset_inv

/-! ### The request on the port -/

/-- The wires of a word carry that word (R9, R21). -/
theorem ofNat_wiresToNat_wiresOf (w : Word) : BitVec.ofNat 64 (wiresToNat (wiresOf w)) = w := by
  refine BitVec.eq_of_getLsbD_eq fun i hi => ?_
  rw [BitVec.getLsbD_ofNat, wiresToNat_testBit, wiresOf_getElem? w hi]
  simp [hi]

/-- The 64 wires of a word decode to ENCODE of it (R49, R50). -/
@[simp] theorem decode_wiresOf (w : Word) : decode (wiresOf w) = .ok (.encode w) := by
  simp [decode, decodeWord, ofNat_wiresToNat_wiresOf]

theorem step_of_decode {s : State} {w : Word} {i : Instr} (hw : s.current.valueI = some w)
    (hi : decode (wiresOf w) = .ok i) : step s = exec i s := by
  rw [decode_wiresOf] at hi
  cases hi
  exact step_driven hw

/-- Settles O1: the wires on the port decode to ENCODE of their word, which is what a driven step runs. -/
theorem stepRunsTheDecodedRequest : Obligations.StepRunsTheDecodedRequest :=
  ⟨fun _ _ _ hw hi => step_of_decode hw hi, fun _ h => step_undriven h⟩

/-- A table row decodes when it has at most 64 bits, to the request on the wires of its word. -/
theorem decode_of_decodeTableWord {nbits w : Nat} {i : Instr} (h : decodeTableWord nbits w = some i) :
    decode (wiresOf (tableWord nbits w)) = .ok i := by
  unfold decodeTableWord at h
  split at h
  · cases h
  · rw [decode_wiresOf] at h ⊢
    cases h
    rfl

/-- Settles O33: the row's word is the request on the port. -/
theorem fetchWordIsRunNext : Obligations.FetchWordIsRunNext := fun s nbits w _ hi =>
  step_of_decode (withFetchWord_valueI s nbits w) (decode_of_decodeTableWord hi)

/-! ### Repeating a step, and the first step after reset -/

/-- A port-form step with no other invocation in flight. -/
theorem step_port_alone {s : State} {v : Word} (hv : s.current.valueI = some v) (hb : s.current.buffer = none)
    (hw : s.waiting = []) :
    step s = .next { s with current := s.current.deliver (outputChars s.current.config v) } := by
  rw [step_driven hv, execEncode_port v hb, finish_of_waiting_nil _ hw]

/-- A step that delivers what is on the port already changes nothing. -/
theorem step_of_delivered {s : State} {v : Word} (hv : s.current.valueI = some v) (hb : s.current.buffer = none)
    (hw : s.waiting = []) (hd : s.current.deliver (outputChars s.current.config v) = s.current) :
    step s = .next s := by
  rw [step_port_alone hv hb hw, hd]

/-- Settles O22: after the step the call is over and the port is settled, so the next step is in the port form and
delivers what is there already. -/
theorem secondInvocationChangesNothing : Obligations.SecondInvocationChangesNothing := by
  intro s t h hw hst
  obtain ⟨v, hv, rfl⟩ := step_next_inv hst
  rw [finish_of_waiting_nil (s := { s with mem := s.memAfter v }) _ hw]
  exact step_of_delivered hv rfl hw (deliver_deliver (current_inv h) hv)

/-- Settles O29: presenting an operand makes the reset instance sound, so its step settles the port. -/
theorem resetThenPresentEncodes : Obligations.ResetThenPresentEncodes := by
  refine ⟨rfl, rfl, rfl, rfl, rfl, fun _ => rfl, fun _ => rfl, fun v => ?_⟩
  exact ⟨_, step_port_alone (v := v) rfl rfl rfl,
    read_deliver_of_sound v (present_inv Instance.reset v none (by decide)).outSound⟩

/-! ### The parameters of the instances -/

/-- The parameters of every instance, in the order of the schedule. -/
abbrev State.configs (s : State) : List Config := s.instances.map (fun a => a.config)

/-- Passing the turn keeps every instance's parameters, if the one that gives it up keeps its own. -/
theorem finish_configs_perm (s : State) {a : Instance} (h : a.config = s.current.config) :
    (s.finish a).configs.Perm s.configs := by
  have hp := (finish_instances_perm s a).map (fun a => a.config)
  rwa [List.map_cons, h] at hp

/-- Bringing an instance into flight adds it to those there are. -/
theorem enqueue_instances_perm (s : State) (a : Instance) : (s.enqueue a).instances.Perm (a :: s.instances) := by
  rcases enqueue_cases s a with ⟨_, h⟩ | ⟨_, h⟩ <;> rw [h] <;> simp only [State.instances]
  · exact List.perm_middle.cons a
  · rw [List.append_assoc]
    exact (List.perm_middle.cons _).trans (List.Perm.swap a _ _)

theorem enqueue_configs_perm (s : State) (a : Instance) : (s.enqueue a).configs.Perm (a.config :: s.configs) :=
  (enqueue_instances_perm s a).map (fun a => a.config)

/-- An idle instance taken out of the idle ones and counted apart: the instances are the same. -/
theorem eraseIdle_instances_perm {s : State} {k : Nat} {a : Instance} (h : s.idle[k]? = some a) :
    (a :: State.instances { s with idle := s.idle.eraseIdx k }).Perm s.instances := by
  obtain ⟨hk, rfl⟩ := List.getElem?_eq_some_iff.mp h
  have hidle := List.getElem_cons_eraseIdx_perm hk
  calc
    List.Perm (s.idle[k] :: s.current :: (s.waiting ++ s.idle.eraseIdx k))
        (s.current :: s.idle[k] :: (s.waiting ++ s.idle.eraseIdx k)) := List.Perm.swap _ _ _
    List.Perm _ (s.current :: (s.waiting ++ s.idle[k] :: s.idle.eraseIdx k)) := List.perm_middle.symm.cons _
    List.Perm _ s.instances := (hidle.append_left _).cons _

theorem step_configs_perm {s t : State} (h : step s = .next t) : t.configs.Perm s.configs := by
  obtain ⟨v, _, rfl⟩ := step_next_inv h
  exact finish_configs_perm { s with mem := s.memAfter v } rfl

/-- A host's action on an operand port keeps the parameters if it does so where no call is in flight. -/
theorem unlessInCall_configs_perm {s s' : State} (a : Instance) (h : s'.configs.Perm s.configs) :
    (s.unlessInCall a s').configs.Perm s.configs := by
  rcases unlessInCall_cases s a s' with ⟨_, he⟩ | ⟨_, he⟩ <;> rw [he]
  exact h

/-- A successive invocation on an idle instance keeps every instance's parameters. -/
theorem reuse_configs_perm (s : State) (k : Nat) (v : Word) (b : Option Buffer) :
    ((HostEvent.reuse k v b).apply s).configs.Perm s.configs := by
  cases h : s.idle[k]? with
  | none => simp only [HostEvent.apply, h]; exact List.Perm.refl _
  | some a =>
    simp only [HostEvent.apply, h]
    exact unlessInCall_configs_perm a
      ((enqueue_configs_perm _ _).trans ((eraseIdle_instances_perm h).map Instance.config))

theorem hostEvent_configs_perm (s : State) (e : HostEvent) (he : ∀ c v b, e ≠ .invoke c v b) :
    (e.apply s).configs.Perm s.configs := by
  cases e with
  | present v b => exact unlessInCall_configs_perm _ (List.Perm.refl _)
  | undrive => exact unlessInCall_configs_perm _ (finish_configs_perm s rfl)
  | invoke c v b => exact absurd rfl (he c v b)
  | reuse k v b => exact reuse_configs_perm s k v b
  | store | sample | systemReset | powerCycle => exact List.Perm.refl _

/-- Settles O23: a step and every event but a new instance only reorder the instances. -/
theorem configurationNeverChanges : Obligations.ConfigurationNeverChanges :=
  ⟨fun _ _ h => step_configs_perm h, hostEvent_configs_perm, fun s _ _ _ => enqueue_configs_perm s _⟩

/-! ### The flat bus -/

/-- The bus is the sum of its characters, each at its own eight wires (R30). -/
theorem packBus_eq_sum (cs : List Byte) :
    packBus cs = (Finset.range cs.length).sum (fun k => (cs.getD k 0#8).toNat * 2 ^ (8 * k)) := by
  induction cs with
  | nil => rfl
  | cons c cs ih =>
    rw [List.length_cons, Finset.sum_range_succ', packBus, ih, Finset.mul_sum, Nat.add_comm]
    congr 1
    · refine Finset.sum_congr rfl fun k _ => ?_
      rw [List.getD_cons_succ]
      ring
    · simp

/-- The characters fit on eight wires each. -/
theorem packBus_lt (cs : List Byte) : packBus cs < 2 ^ (8 * cs.length) := by
  induction cs with
  | nil => simp [packBus]
  | cons c cs ih =>
    rw [packBus, List.length_cons, show 8 * (cs.length + 1) = 8 + 8 * cs.length by ring, Nat.pow_add]
    have := c.isLt
    omega

/-- Bit j of character k is bit `8k + j` of the bus (R30). -/
theorem packBus_testBit (cs : List Byte) (k : Nat) {j : Nat} (hj : j < 8) :
    (packBus cs).testBit (8 * k + j) = (cs.getD k 0#8).getLsbD j := by
  induction cs generalizing k with
  | nil => simp [packBus]
  | cons c cs ih =>
    rw [packBus, Nat.add_comm, Nat.testBit_two_pow_mul_add _ c.isLt]
    cases k with
    | zero => simp [hj, BitVec.testBit_toNat]
    | succ k =>
      rw [if_neg (by omega), show 8 * (k + 1) + j - 8 = 8 * k + j by omega, ih, List.getD_cons_succ]

theorem outBus_of_readChars {a : Instance} {cs : List Byte} (h : readChars a.out 0 (positions a.config) = some cs) :
    a.outBus = some (BitVec.ofNat _ (packBus cs)) := by
  rw [Instance.outBus, h, Option.map_some]

/-- Every character of a delivered output can be sampled at its position. -/
theorem readChars_deliver (a : Instance) (v : Word) :
    readChars (a.deliver (outputChars a.config v)).out 0 (positions a.config) = some (outputChars a.config v) := by
  have h := readChars_eq_some (m := (a.deliver (outputChars a.config v)).out) (base := 0)
    fun _ hk => read_storeChars_inside (outputChars a.config v) a.out hk
  rwa [outputChars_length] at h

/-- The bus after an invocation packs the output's characters. -/
theorem outBus_deliver (a : Instance) (v : Word) :
    (a.deliver (outputChars a.config v)).outBus = some (BitVec.ofNat _ (packBus (outputChars a.config v))) :=
  outBus_of_readChars (readChars_deliver a v)

/-- Character k of an output is what the rules put at position k. -/
theorem outputAt_eq_getD (c : Config) (v : Word) {k : Nat} (hk : k < positions c) :
    outputAt c v k = some ((outputChars c v).getD k 0#8) := by
  have hk' : k < (outputChars c v).length := by rwa [outputChars_length]
  rw [outputAt_eq, List.getD_eq_getElem _ _ hk', List.getElem?_eq_getElem hk']

/-- A bus of L characters has character k at its wires `8k` to `8k + 7`. -/
theorem bus_getLsbD {n : Nat} (cs : List Byte) {k j : Nat} (hk : k < n) (hj : j < 8) :
    (BitVec.ofNat (8 * n) (packBus cs)).getLsbD (8 * k + j) = (cs.getD k 0#8).getLsbD j := by
  rw [BitVec.getLsbD_ofNat, packBus_testBit cs k hj, decide_eq_true (by omega), Bool.true_and]

/-- A bus wide enough for its characters carries them as one integer. -/
theorem bus_toNat {n : Nat} {cs : List Byte} (h : cs.length = n) :
    (BitVec.ofNat (8 * n) (packBus cs)).toNat =
      (Finset.range n).sum (fun k => (cs.getD k 0#8).toNat * 2 ^ (8 * k)) := by
  subst h
  rw [BitVec.toNat_ofNat, Nat.mod_eq_of_lt (packBus_lt cs), packBus_eq_sum]

/-- Settles O7: the bus is the packed list of the output's characters. -/
theorem busPacksCharacters : Obligations.BusPacksCharacters := fun v s _ hb =>
  ⟨_, _, fun k => (outputChars s.current.config v).getD k 0#8, execEncode_port v hb, rfl, outBus_deliver s.current v,
    fun _ hk => outputAt_eq_getD _ v hk, fun _ _ hk hj => bus_getLsbD _ hk hj, bus_toNat (outputChars_length _ v)⟩

end Sys2Proof.Machine

/-! ## Proofs: what ENCODE leaves in the output space, the buffer and the rest of the machine -/

namespace Sys2Proof.Machine

/-! ### The output positions, case by case -/

/-- A digit position holds the character of its bit (R28, R62). -/
theorem outputAt_digit (c : Config) (v : Word) {k : Nat} (h : k < 64) :
    outputAt c v k = some (if v.getLsbD (63 - k) then c.codeOne else c.codeZero) := if_pos h

/-- Position 64 holds the terminator, when there is one (R66). -/
theorem outputAt_terminator (c : Config) (v : Word) :
    outputAt c v 64 = if c.termPresent then some c.termCode else none := by
  rw [outputAt_eq, outputChars_terminator]

/-- There is no position from L on (R37). -/
theorem outputAt_beyond (c : Config) (v : Word) {k : Nat} (h : positions c ≤ k) : outputAt c v k = none := by
  rw [outputAt_eq, List.getElem?_eq_none (by rwa [outputChars_length])]

/-- There are L positions, 64 or 65 (R8). -/
theorem positions_bounds (c : Config) : 64 ≤ positions c ∧ positions c ≤ 65 := by
  unfold positions
  split <;> omega

theorem positions_of_terminator {c : Config} (h : c.termPresent = true) : positions c = 65 := by
  simp [positions, h]

/-- The stored output has the character of position k at `base + k` (R36). -/
theorem read_storeOutput_position (c : Config) (v : Word) (base : Nat) (m : Memory) {k : Nat} (h : k < positions c) :
    Memory.read (storeChars base (outputChars c v) m) (base + k) = outputAt c v k := by
  rw [read_storeOutput, if_neg (by omega), Nat.add_sub_cancel_left, outputAt_eq]

/-- The stored output leaves every byte below and above its L bytes alone (R32, R36). -/
theorem read_storeOutput_outside (c : Config) (v : Word) (m : Memory) {base x : Nat}
    (h : x < base ∨ base + positions c ≤ x) :
    Memory.read (storeChars base (outputChars c v) m) x = Memory.read m x := by
  rw [read_storeOutput, if_pos h]

/-! ### The port form -/

/-- In the port form an invocation changes nothing of its instance but the output port. -/
theorem deliver_of_port {a : Instance} (cs : List Byte) (h : a.buffer = none) :
    a.deliver cs = { a with out := storeChars 0 cs a.out } := by
  rw [Instance.deliver, ← h]

/-- Settles O6: the port form completes, and a sound port shows `outputAt` afterwards, read case by case. -/
theorem encodeFillsTheOutput : Obligations.EncodeFillsTheOutput := by
  intro v s hs hb
  have hread := read_deliver_of_sound v (current_inv hs).outSound
  have hbounds := positions_bounds s.current.config
  refine ⟨_, deliver_of_port _ hb ▸ execEncode_port v hb, fun k hk => ?_, ?_, fun k hk => ?_⟩
  · exact (hread k).trans (outputAt_digit _ v hk)
  · exact (hread 64).trans (outputAt_terminator _ v)
  · exact (hread k).trans (outputAt_beyond _ v (by omega))

/-! ### The lanes, one after the other -/

/-- Characters stored in two parts. -/
theorem storeChars_append (cs ds : List Byte) (base : Nat) (m : Memory) :
    storeChars base (cs ++ ds) m = storeChars (base + cs.length) ds (storeChars base cs m) := by
  induction cs generalizing base m with
  | nil => rfl
  | cons c cs ih =>
    rw [List.cons_append, storeChars, storeChars, ih, List.length_cons, Nat.add_right_comm, Nat.add_assoc]

/-- Writing lanes keeps the canonical form. -/
theorem writeLanes_wf (c : Config) (raw : Word) (ks : List Nat) {m : Memory} (h : Memory.wf m) :
    Memory.wf (writeLanes c raw ks m) := by
  induction ks generalizing m with
  | nil => exact h
  | cons k ks ih => exact ih (write_wf k _ h)

/-- Each lane that is written is at its own position, whatever is written after it. -/
theorem read_writeLanes (c : Config) (raw : Word) (ks : List Nat) (m : Memory) (x : Nat) :
    Memory.read (writeLanes c raw ks m) x = if x ∈ ks then some (laneCode c raw x) else Memory.read m x := by
  induction ks generalizing m with
  | nil => rfl
  | cons k ks ih =>
    have hcons : writeLanes c raw (k :: ks) m = writeLanes c raw ks (Memory.write m k (laneCode c raw k)) := rfl
    rw [hcons, ih]
    by_cases hks : x ∈ ks
    · rw [if_pos hks, if_pos (List.mem_cons_of_mem k hks)]
    · rw [if_neg hks]
      by_cases hk : x = k
      · rw [hk, read_write_self, if_pos List.mem_cons_self]
      · rw [read_write_other m _ hk, if_neg (by simp [hk, hks])]

/-- What a read of the parallel lanes sees. -/
theorem read_storeRender (c : Config) (raw : Word) (m : Memory) (x : Nat) :
    Memory.read (storeChars 0 (render c raw) m) x = if x < 64 then some (laneCode c raw x) else Memory.read m x := by
  split
  · rename_i hx
    have hr := read_storeChars_inside (render c raw) (base := 0) (k := x) m (by rwa [render_length])
    simpa [render] using hr
  · exact read_storeChars_outside _ m (by rw [render_length]; omega)

/-- The lanes written in any order leave what the parallel lanes leave (R63, R39). -/
theorem writeLanes_eq_storeRender (c : Config) (raw : Word) {ks : List Nat} {m : Memory}
    (hks : ks.Perm (List.range 64)) (hm : Memory.wf m) :
    writeLanes c raw ks m = storeChars 0 (render c raw) m := by
  refine memory_ext (writeLanes_wf c raw ks hm) (storeChars_wf _ 0 hm) fun x => ?_
  simp only [read_writeLanes, read_storeRender, hks.mem_iff, List.mem_range]

/-- The output is the lanes in any order, and then the terminator. -/
theorem storeChars_outputChars_eq_writeLanes (c : Config) (v : Word) {ks : List Nat} {m : Memory}
    (hks : ks.Perm (List.range 64)) (hm : Memory.wf m) :
    storeChars 0 (outputChars c v) m = storeChars 64 (terminatorLane c) (writeLanes c v ks m) := by
  rw [outputChars, extract, storeChars_append, render_length, writeLanes_eq_storeRender c v hks hm]

/-- Settles O16: the sequential lanes and the terminator leave the very output space that the port form delivers. -/
theorem laneOrderUnobservable : Obligations.LaneOrderUnobservable := by
  intro v s order hs hb horder
  rw [execEncode_port v hb, deliver_of_port _ hb,
    storeChars_outputChars_eq_writeLanes _ v horder (outSound_space (current_inv hs).outSound).1]

/-! ### The buffer form -/

/-- The buffer form completes on a buffer of L bytes that no other invocation in flight shares (R94, R95). -/
theorem execEncode_ownBuffer {s : State} (v : Word) {b : Buffer} (hb : s.current.buffer = some b)
    (hsize : positions s.current.config ≤ b.size)
    (hown : ∀ a ∈ s.waiting, ∀ b', a.buffer = some b' → ¬ b.ShareByte b') :
    exec (.encode v) s =
      .next ({ s with mem := storeChars b.base (outputChars s.current.config v) s.mem }.finish
        (s.current.deliver (outputChars s.current.config v))) := by
  rcases execEncode_buffer v hb with ⟨hshort, _⟩ | ⟨_, ⟨a, ha, hclaim⟩, _⟩ | ⟨_, _, he⟩
  · omega
  · obtain ⟨b', hb', hshare⟩ := (claims_iff a b).mp hclaim
    exact absurd hshare (hown a ha b' hb')
  · exact he

/-- Settles O17: the wrapper stores the very characters of the port, from the buffer's base upward. -/
theorem bufferFormWritesTheBuffer : Obligations.BufferFormWritesTheBuffer := by
  intro v s b hs hb hsize hown
  have hbounds := positions_bounds s.current.config
  refine ⟨_, _, execEncode_ownBuffer v hb hsize hown, fun k hk => ?_, fun ht => ?_, fun x hx => ?_, ?_⟩
  · rw [read_storeOutput_position _ v _ _ (by omega), outputAt_digit _ v hk]
  · rw [read_storeOutput_position _ v _ _ (by rw [positions_of_terminator ht]; omega), outputAt_terminator, if_pos ht]
  · exact read_storeOutput_outside _ v s.mem hx
  · exact read_deliver_of_sound v (current_inv hs).outSound

/-! ### The frame -/

/-- With another invocation in flight the turn passes to it (log 8). -/
theorem finish_of_waiting_cons {s : State} (a : Instance) {n : Instance} {rest : List Instance}
    (h : s.waiting = n :: rest) :
    s.finish a = { s with current := n, waiting := rest, idle := a :: s.idle } := by
  simp [State.finish, h]

/-- Settles O20: a completed invocation has stored its characters, delivered them and passed the turn, and nothing else. -/
theorem stepKeepsTheRest : Obligations.StepKeepsTheRest := by
  intro v s t h
  have ht := eq_finish_of_exec_next h
  refine ⟨s.current.deliver (outputChars s.current.config v), rfl, rfl, rfl, fun k hk => ?_, fun hb => ?_,
    fun b hb x hx => ?_, fun hw => ?_, fun n rest hw => ?_⟩
  · exact read_storeOutput_outside _ v s.current.out (.inr (by omega))
  · rw [ht, finish_mem, memAfter_port v hb]
  · rw [ht, finish_mem, memAfter_buffer v hb]
    exact read_storeOutput_outside _ v s.mem hx
  · rw [ht, finish_of_waiting_nil (s := { s with mem := s.memAfter v }) _ hw]
    exact ⟨rfl, hw, rfl⟩
  · rw [ht, finish_of_waiting_cons (s := { s with mem := s.memAfter v }) _ hw]
    exact ⟨rfl, rfl, rfl⟩

/-! ### Successive operands -/

/-- Presenting an operand in the port form where no other invocation is in flight: the next step settles the port on it,
whatever the port showed before, and leaves memory and the schedule. -/
theorem step_present_alone {s : State} (v : Word) (hb : s.current.buffer = none) (hw : s.waiting = []) :
    step ((HostEvent.present v none).apply s) =
      .next { s with current := (s.current.present v none).deliver (outputChars s.current.config v) } := by
  rw [HostEvent.apply, unlessInCall_free _ _ hb]
  exact step_port_alone (v := v) rfl rfl hw

/-- Settles O32: after a completed step the call is over, so the new operand takes effect and its step settles the port. -/
theorem successiveOperandsAreIndependent : Obligations.SuccessiveOperandsAreIndependent := by
  intro s t v hs hw hst
  obtain ⟨w, _, rfl⟩ := step_next_inv hst
  rw [finish_of_waiting_nil (s := { s with mem := s.memAfter w }) _ hw]
  refine ⟨_, step_present_alone v rfl hw, fun k => ?_, rfl, hw, rfl⟩
  exact read_deliver_of_sound v (present_inv _ v none (current_inv hs).admissible).outSound k

/-! ### Invocations that wait -/

/-- Bringing an invocation into flight keeps those that wait. -/
theorem mem_enqueue_waiting {s : State} {x : Instance} (a : Instance) (h : x ∈ s.waiting) :
    x ∈ (s.enqueue a).waiting := by
  rcases enqueue_cases s a with ⟨_, he⟩ | ⟨_, he⟩ <;> rw [he]
  · exact h
  · exact List.mem_append_left [a] h

/-- The end of a turn keeps every waiting invocation in flight: it still waits, or the turn has come to it. -/
theorem mem_finish_waiting {s : State} {x : Instance} (a : Instance) (h : x ∈ s.waiting) :
    x ∈ (s.finish a).waiting ∨ x = (s.finish a).current := by
  rcases finish_cases s a with ⟨_, he⟩ | ⟨b, rest, hw, he⟩ <;> rw [he]
  · exact .inl h
  · exact (List.mem_cons.mp (hw ▸ h)).symm

/-- A host's action on an operand port keeps the waiting invocations if it does so where no call is in flight. -/
theorem mem_unlessInCall_waiting {s s' : State} {x : Instance} (a : Instance) (hs : x ∈ s.waiting)
    (hs' : x ∈ s'.waiting) : x ∈ (s.unlessInCall a s').waiting := by
  rcases unlessInCall_cases s a s' with ⟨_, he⟩ | ⟨_, he⟩ <;> rw [he]
  · exact hs'
  · exact hs

/-- A successive invocation on an idle instance keeps those that wait. -/
theorem mem_reuse_waiting {s : State} {x : Instance} (k : Nat) (v : Word) (b : Option Buffer) (h : x ∈ s.waiting) :
    x ∈ ((HostEvent.reuse k v b).apply s).waiting := by
  cases hk : s.idle[k]? with
  | none => simpa only [HostEvent.apply, hk] using h
  | some a =>
    simp only [HostEvent.apply, hk]
    exact mem_unlessInCall_waiting a h (mem_enqueue_waiting _ h)

/-- Undriving the current operand keeps every waiting invocation in flight (log 21). -/
theorem mem_undrive_waiting {s : State} {x : Instance} (h : x ∈ s.waiting) :
    x ∈ (HostEvent.undrive.apply s).waiting ∨ x = (HostEvent.undrive.apply s).current := by
  rw [HostEvent.apply]
  rcases unlessInCall_cases s s.current (s.finish s.current.undrive) with ⟨_, he⟩ | ⟨_, he⟩ <;> rw [he]
  · exact mem_finish_waiting _ h
  · exact .inl h

/-- Settles O36: only undriving can end a turn, and then the turn comes to the first of those that wait. -/
theorem waitingInvocationsStayInFlight : Obligations.WaitingInvocationsStayInFlight := by
  intro s e a ha
  cases e with
  | undrive => exact (mem_undrive_waiting ha).imp_right fun h => ⟨h, rfl⟩
  | present v b => exact .inl (mem_unlessInCall_waiting _ ha ha)
  | invoke c v b => exact .inl (mem_enqueue_waiting _ ha)
  | reuse k v b => exact .inl (mem_reuse_waiting k v b ha)
  | store | sample | systemReset | powerCycle => exact .inl ha

end Sys2Proof.Machine

/-! ## Proofs: every schedule of the invocations in flight -/

namespace Sys2Proof.Machine

/-! ### One invocation, said of its instance alone -/

/-- The instance after its own invocation: the output of its operand is on its port. -/
def Instance.served (a : Instance) : Instance :=
  match a.valueI with
  | none => a
  | some v => a.deliver (outputChars a.config v)

/-- The host's memory after the instance's own invocation. -/
def Instance.storeOutput (a : Instance) (m : Memory) : Memory :=
  match a.valueI, a.buffer with
  | some v, some b => storeChars b.base (outputChars a.config v) m
  | _, _ => m

/-- The instance's invocation is given no buffer that has byte `x` among its first L. -/
def Instance.LeavesByte (a : Instance) (x : Nat) : Prop :=
  ∀ b, a.buffer = some b → x < b.base ∨ b.base + positions a.config ≤ x

theorem served_of_driven {a : Instance} {v : Word} (h : a.valueI = some v) :
    a.served = a.deliver (outputChars a.config v) := by
  simp [Instance.served, h]

theorem storeOutput_call {a : Instance} {v : Word} {b : Buffer} (m : Memory) (hv : a.valueI = some v)
    (hb : a.buffer = some b) : a.storeOutput m = storeChars b.base (outputChars a.config v) m := by
  simp [Instance.storeOutput, hv, hb]

theorem storeOutput_port {a : Instance} (m : Memory) (hb : a.buffer = none) : a.storeOutput m = m := by
  simp [Instance.storeOutput, hb]

/-- Everything an invocation can do to the host's memory: nothing, or its call stores its own output. -/
theorem storeOutput_cases (a : Instance) (m : Memory) :
    a.storeOutput m = m ∨
    ∃ v b, a.buffer = some b ∧ a.storeOutput m = storeChars b.base (outputChars a.config v) m := by
  cases hb : a.buffer with
  | none => exact .inl (storeOutput_port m hb)
  | some b =>
    cases hv : a.valueI with
    | none => exact .inl (by simp [Instance.storeOutput, hv])
    | some v => exact .inr ⟨v, b, rfl, storeOutput_call m hv hb⟩

theorem storeOutput_wf (a : Instance) {m : Memory} (h : Memory.wf m) : Memory.wf (a.storeOutput m) := by
  rcases storeOutput_cases a m with he | ⟨v, b, _, he⟩ <;> rw [he]
  · exact h
  · exact storeChars_wf _ _ h

/-- An invocation leaves every byte outside its buffer alone. -/
theorem read_storeOutput_leaves {a : Instance} {x : Nat} (m : Memory) (h : a.LeavesByte x) :
    Memory.read (a.storeOutput m) x = Memory.read m x := by
  rcases storeOutput_cases a m with he | ⟨v, b, hb, he⟩ <;> rw [he]
  exact read_storeOutput_outside _ v m (h b hb)

/-! ### The invocations one after the other -/

/-- The host's memory after the invocations of the instances, in their order. -/
def storeOutputs : List Instance → Memory → Memory
  | [], m => m
  | a :: as, m => storeOutputs as (a.storeOutput m)

theorem storeOutputs_wf (as : List Instance) {m : Memory} (h : Memory.wf m) : Memory.wf (storeOutputs as m) := by
  induction as generalizing m with
  | nil => exact h
  | cons a as ih => exact ih (storeOutput_wf a h)

/-- A byte that every invocation leaves alone keeps its value. -/
theorem read_storeOutputs_leaves {as : List Instance} {x : Nat} (m : Memory) (h : ∀ a ∈ as, a.LeavesByte x) :
    Memory.read (storeOutputs as m) x = Memory.read m x := by
  induction as generalizing m with
  | nil => rfl
  | cons a as ih =>
    obtain ⟨ha, has⟩ := List.forall_mem_cons.mp h
    rw [storeOutputs, ih _ has, read_storeOutput_leaves m ha]

/-- A byte of an invocation's buffer holds its own character at the end, wherever in the order it stands. -/
theorem read_storeOutputs_call {as : List Instance} {a : Instance} {v : Word} {b : Buffer} {k : Nat} (m : Memory)
    (ha : a ∈ as) (hv : a.valueI = some v) (hb : a.buffer = some b) (hk : k < positions a.config)
    (hown : ∀ a' ∈ as, a = a' ∨ a'.LeavesByte (b.base + k)) :
    Memory.read (storeOutputs as m) (b.base + k) = outputAt a.config v k := by
  induction as generalizing m with
  | nil => simp at ha
  | cons c as ih =>
    obtain ⟨hc, has⟩ := List.forall_mem_cons.mp hown
    rw [storeOutputs]
    by_cases hmem : a ∈ as
    · exact ih _ hmem has
    · have hac : a = c := (List.mem_cons.mp ha).resolve_right hmem
      have hrest : ∀ a' ∈ as, a'.LeavesByte (b.base + k) := fun a' ha' =>
        (has a' ha').resolve_left fun he => hmem (he ▸ ha')
      rw [read_storeOutputs_leaves _ hrest, ← hac, storeOutput_call m hv hb, read_storeOutput_position _ v _ m hk]

/-! ### What the host's duty for the whole schedule comes to -/

/-- A byte that an instance's invocation does not leave alone is one of the first L of its buffer. -/
theorem position_of_not_leavesByte {a : Instance} {x : Nat} (h : ¬ a.LeavesByte x) :
    ∃ b k, a.buffer = some b ∧ k < positions a.config ∧ x = b.base + k := by
  simp only [Instance.LeavesByte, not_forall, not_or] at h
  obtain ⟨b, hb, hlow, hhigh⟩ := h
  exact ⟨b, x - b.base, hb, by omega, by omega⟩

/-- Two invocations have no byte of their buffers in common (R95). -/
def Instance.SharesNothing (a a' : Instance) : Prop :=
  ∀ b b', a.buffer = some b → a'.buffer = some b' → ¬ b.ShareByte b'

theorem sharesNothing_symm : Std.Symm Instance.SharesNothing :=
  ⟨fun _ _ h b b' hb hb' hs => h b' b hb' hb (shareByte_comm hs)⟩

/-- The duty gives every invocation in flight a buffer of its own. -/
theorem scheduleDuty_sharesNothing {s : State} (h : s.ScheduleDuty) :
    (s.current :: s.waiting).Pairwise Instance.SharesNothing := h.ownBuffers

/-- The duty does not depend on the order of the schedule. -/
theorem scheduleDuty_perm {s s' : State} (h : s.ScheduleDuty)
    (hp : (s'.current :: s'.waiting).Perm (s.current :: s.waiting)) : s'.ScheduleDuty where
  operands := fun a ha => h.operands a (hp.mem_iff.mp ha)
  bufferSizes := fun a ha => h.bufferSizes a (hp.mem_iff.mp ha)
  ownBuffers := (hp.pairwise_iff (sharesNothing_symm.symm _ _)).mpr (scheduleDuty_sharesNothing h)

/-- The duty for the schedule includes the duty for what is left of it when the first turn has passed on. -/
theorem scheduleDuty_tail {s : State} {n : Instance} {rest : List Instance} (idle : List Instance) (mem : Memory)
    (h : s.ScheduleDuty) (hw : s.waiting = n :: rest) :
    State.ScheduleDuty { current := n, waiting := rest, idle := idle, mem := mem } := by
  obtain ⟨hop, hsize, hown⟩ := h
  rw [hw] at hop hsize hown
  exact ⟨(List.forall_mem_cons.mp hop).2, (List.forall_mem_cons.mp hsize).2, (List.pairwise_cons.mp hown).2⟩

/-- The duty for the schedule includes the duty for the next step. -/
theorem hostDuty_of_scheduleDuty {s : State} (h : s.ScheduleDuty) : s.HostDuty where
  operand := h.operands _ List.mem_cons_self
  bufferSize := h.bufferSizes _ List.mem_cons_self
  ownBuffer := fun b hb a ha b' hb' => (List.pairwise_cons.mp h.ownBuffers).1 a ha b b' hb hb'

/-- A byte that one invocation stores is left alone by every other. -/
theorem leavesByte_of_scheduleDuty {s : State} {a a' : Instance} {b : Buffer} {k : Nat} (h : s.ScheduleDuty)
    (ha : a ∈ s.current :: s.waiting) (ha' : a' ∈ s.current :: s.waiting) (hb : a.buffer = some b)
    (hk : k < positions a.config) : a = a' ∨ a'.LeavesByte (b.base + k) := by
  refine or_iff_not_imp_left.mpr fun hne b' hb' => ?_
  have hsymm := sharesNothing_symm
  have hshare : ¬ b.ShareByte b' := (scheduleDuty_sharesNothing h).forall ha ha' hne b b' hb hb'
  have hsize := h.bufferSizes a ha b hb
  have hsize' := h.bufferSizes a' ha' b' hb'
  by_contra hin
  exact hshare ⟨b.base + k, by omega, by omega⟩

/-- Whatever the order of the invocations, a call's bytes hold `ENCODE` of its own operand. -/
theorem read_schedule_call {s : State} {as : List Instance} {a : Instance} {v : Word} {b : Buffer} {k : Nat}
    (m : Memory) (h : s.ScheduleDuty) (hp : as.Perm (s.current :: s.waiting)) (ha : a ∈ s.current :: s.waiting)
    (hv : a.valueI = some v) (hb : a.buffer = some b) (hk : k < positions a.config) :
    Memory.read (storeOutputs as m) (b.base + k) = outputAt a.config v k :=
  read_storeOutputs_call m (hp.mem_iff.mpr ha) hv hb hk fun _ ha' =>
    leavesByte_of_scheduleDuty h ha (hp.mem_iff.mp ha') hb hk

/-- Whatever the order of the invocations, they leave the same memory: every byte belongs to one call or to none. -/
theorem storeOutputs_perm {s : State} {as : List Instance} {m : Memory} (h : s.ScheduleDuty) (hm : Memory.wf m)
    (hp : as.Perm (s.current :: s.waiting)) : storeOutputs as m = storeOutputs (s.current :: s.waiting) m := by
  refine memory_ext (storeOutputs_wf _ hm) (storeOutputs_wf _ hm) fun x => ?_
  by_cases hx : ∀ a ∈ s.current :: s.waiting, a.LeavesByte x
  · rw [read_storeOutputs_leaves m hx, read_storeOutputs_leaves m fun a ha => hx a (hp.mem_iff.mp ha)]
  · simp only [not_forall] at hx
    obtain ⟨a, ha, hax⟩ := hx
    obtain ⟨b, k, hb, hk, rfl⟩ := position_of_not_leavesByte hax
    obtain ⟨v, hv⟩ := Option.ne_none_iff_exists'.mp (h.operands a ha)
    rw [read_schedule_call m h hp ha hv hb hk, read_schedule_call m h (.refl _) ha hv hb hk]

/-! ### The run of a whole schedule -/

/-- A step of a machine whose host has done its duty is its current instance's own invocation. -/
theorem step_of_hostDuty {s : State} (h : s.HostDuty) :
    step s = .next ({ s with mem := s.current.storeOutput s.mem }.finish s.current.served) := by
  obtain ⟨v, hv⟩ := Option.ne_none_iff_exists'.mp h.operand
  rw [step_driven hv, served_of_driven hv]
  cases hb : s.current.buffer with
  | none => rw [execEncode_port v hb, storeOutput_port _ hb]
  | some b => rw [execEncode_ownBuffer v hb (h.bufferSize b hb) (h.ownBuffer b hb), storeOutput_call _ hv hb]

/-- A run of as many steps as there are invocations in flight completes: each of them has been served, and the memory is
what they store one after the other. -/
theorem run_schedule {s : State} (h : s.ScheduleDuty) :
    ∃ t, core.run (s.waiting.length + 1) s = .next t ∧ t.mem = storeOutputs (s.current :: s.waiting) s.mem ∧
      t.instances.Perm ((s.current :: s.waiting).map Instance.served ++ s.idle) := by
  induction hw : s.waiting generalizing s with
  | nil =>
    have hstep := step_of_hostDuty (hostDuty_of_scheduleDuty h)
    rw [finish_of_waiting_nil (s := { s with mem := s.current.storeOutput s.mem }) _ hw] at hstep
    refine ⟨_, run_succ core 0 hstep, rfl, ?_⟩
    simp [State.instances, hw]
  | cons n rest ih =>
    have hstep := step_of_hostDuty (hostDuty_of_scheduleDuty h)
    rw [finish_of_waiting_cons (s := { s with mem := s.current.storeOutput s.mem }) _ hw] at hstep
    obtain ⟨t, hrun, hmem, hinst⟩ := ih (scheduleDuty_tail _ _ h hw) rfl
    exact ⟨t, (run_succ core _ hstep).trans hrun, hmem, hinst.trans List.perm_middle⟩

/-- A served instance that was sound keeps its parameters and its operand, whose output is on its port. -/
theorem served_port {a : Instance} {v : Word} (h : a.Inv) (hv : a.valueI = some v) :
    a.served.config = a.config ∧ a.served.valueI = some v ∧
      ∀ k, Memory.read a.served.out k = outputAt a.config v k := by
  rw [served_of_driven hv]
  exact ⟨rfl, hv, read_deliver_of_sound v h.outSound⟩

/-- An instance in flight is sound in a sound machine. -/
theorem inFlight_inv {s : State} {a : Instance} (h : s.Inv) (ha : a ∈ s.current :: s.waiting) : a.Inv :=
  h.instancesInv a (List.mem_append_left s.idle ha)

/-- Settles O28: in either order every instance is served and every byte belongs to one call or to none, so that the
two runs agree and each call's bytes and port hold its own output. -/
theorem everyScheduleGivesOwnOutputs : Obligations.EveryScheduleGivesOwnOutputs := by
  intro s s' hs _ hduty hp hidle hmem
  obtain ⟨t, hrun, htmem, htinst⟩ := run_schedule hduty
  obtain ⟨t', hrun', htmem', htinst'⟩ := run_schedule (scheduleDuty_perm hduty hp)
  have hlen : s'.waiting.length = s.waiting.length := by simpa using hp.length_eq
  rw [hlen] at hrun'
  rw [hidle] at htinst'
  rw [hmem, storeOutputs_perm hduty hs.memWf hp] at htmem'
  have hinst : t'.instances.Perm t.instances :=
    htinst'.trans (((hp.map _).append_right _).trans htinst.symm)
  refine ⟨t, t', hrun, hrun', htmem'.trans htmem.symm, hinst, fun a ha v hv => ⟨?_, fun b hb k hk => ?_⟩,
    fun x hx => ?_⟩
  · have hserved : a.served ∈ t.instances :=
      htinst.mem_iff.mpr (List.mem_append_left _ (List.mem_map_of_mem ha))
    exact ⟨a.served, hserved, served_port (inFlight_inv hs ha) hv⟩
  · rw [htmem, read_schedule_call s.mem hduty (.refl _) ha hv hb hk]
  · rw [htmem, read_storeOutputs_leaves s.mem hx]

end Sys2Proof.Machine

/-! ## Proofs: the request format, its fields, and the wires of the result -/

namespace Sys2Proof

/-! ### Decoder and encoder of a request -/

/-- Fewer than 64 wires are rejected by that name (R51, log 15). -/
theorem decode_of_length_lt {wires : List Bool} (h : wires.length < 64) :
    decode wires = .error (.tooFewWires wires.length) := if_pos h

/-- More than 64 wires are rejected by that name (R51, log 15). -/
theorem decode_of_lt_length {wires : List Bool} (h : 64 < wires.length) :
    decode wires = .error (.tooManyWires wires.length) := by
  rw [decode, if_neg (by omega), if_pos h]

/-- 64 wires decode to ENCODE of the integer they carry (R43, R49). -/
theorem decode_of_length_eq {wires : List Bool} (h : wires.length = 64) :
    decode wires = .ok (.encode (BitVec.ofNat 64 (wiresToNat wires))) := by
  rw [decode, if_neg (by omega), if_neg (by omega), decodeWord]

/-- A list of wires that decodes has 64 of them (R43, R51). -/
theorem length_of_decode_ok {wires : List Bool} {i : Instr} (h : decode wires = .ok i) : wires.length = 64 := by
  rcases Nat.lt_trichotomy wires.length 64 with hlt | heq | hgt
  · rw [decode_of_length_lt hlt] at h; cases h
  · exact heq
  · rw [decode_of_lt_length hgt] at h; cases h

/-- The word that 64 wires carry is laid out on those wires (R9, R21). -/
theorem wiresOf_ofNat_wiresToNat {wires : List Bool} (h : wires.length = 64) :
    wiresOf (BitVec.ofNat 64 (wiresToNat wires)) = wires := by
  refine List.ext_getElem (by rw [wiresOf_length, h]) fun n hn hn' => ?_
  have hn64 : n < 64 := h ▸ hn'
  refine Option.some.inj ?_
  rw [← List.getElem?_eq_getElem hn, wiresOf_getElem? _ hn64, BitVec.getLsbD_ofNat, wiresToNat_testBit,
    List.getElem?_eq_getElem hn', decide_eq_true hn64, Bool.true_and, Option.getD_some]

/-- The wires of a request decode to its instruction (R43, R45, R50). -/
@[simp] theorem decode_encode (i : Instr) : decode (encode i) = .ok i := by
  cases i with
  | encode value => exact Machine.decode_wiresOf value

/-- The wires that decode to an instruction are exactly those of its request. -/
theorem decode_eq_ok_iff {wires : List Bool} {i : Instr} : decode wires = .ok i ↔ encode i = wires := by
  constructor
  · intro h
    have hlen := length_of_decode_ok h
    rw [decode_of_length_eq hlen] at h
    cases h
    exact wiresOf_ofNat_wiresToNat hlen
  · rintro rfl
    exact decode_encode i

/-- Settles O3: `decode_eq_ok_iff` is both round trips, and the three cases of the length are the rest. -/
theorem decodeEncodeRoundTrip : Obligations.DecodeEncodeRoundTrip :=
  ⟨fun i _ => decode_encode i, fun _ _ => decode_eq_ok_iff.mp,
    fun _ => ⟨fun ⟨_, h⟩ => length_of_decode_ok h, fun h => ⟨_, decode_of_length_eq h⟩⟩,
    fun _ => decode_of_length_lt, fun _ => decode_of_lt_length⟩

/-- Settles O4: each list is the request of its instruction, wire by wire. -/
theorem writtenRequestsDecode : Obligations.WrittenRequestsDecode := by
  refine ⟨?_, ?_, ?_, ?_⟩ <;> exact decode_eq_ok_iff.mpr (by decide)

/-- A row whose mask and match are 0 is selected by every word (R49). -/
theorem encodeRow_matches (w : Word) : w &&& encodeRow.mask = encodeRow.matchBits := BitVec.and_zero

/-- Settles O2: no bit of the word is masked in. -/
theorem everyWordSelectsEncode : Obligations.EveryWordSelectsEncode :=
  ⟨rfl, rfl, fun w => ⟨encodeRow_matches w, beq_iff_eq.mpr (encodeRow_matches w), rfl⟩⟩

end Sys2Proof

namespace Sys2Proof.Machine

/-! ### The fields of the operand -/

/-- The sign field is bit 63 (R44). -/
theorem signField_eq_one_iff (v : Word) : signField v = 1#1 ↔ v.getLsbD 63 = true := by
  rw [BitVec.eq_of_getLsbD_eq_iff]
  simp [signField]

/-- Bit i of the exponent field is bit `52 + i` of the operand (R44). -/
theorem exponentField_getLsbD (v : Word) {i : Nat} (h : i < 11) :
    (exponentField v).getLsbD i = v.getLsbD (52 + i) := by
  rw [exponentField, BitVec.getLsbD_extractLsb', decide_eq_true h, Bool.true_and]

/-- Bit i of the mantissa field is bit i of the operand (R44). -/
theorem mantissaField_getLsbD (v : Word) {i : Nat} (h : i < 52) : (mantissaField v).getLsbD i = v.getLsbD i := by
  rw [mantissaField, BitVec.getLsbD_extractLsb', decide_eq_true h, Bool.true_and, Nat.zero_add]

/-- The three fields side by side are the operand: none overlaps another and no bit is left out (R44). -/
theorem fields_append (v : Word) : signField v ++ exponentField v ++ mantissaField v = v := by
  have hupper : signField v ++ exponentField v = v.extractLsb' 52 12 :=
    BitVec.extractLsb'_append_extractLsb'_eq_extractLsb' rfl
  rw [hupper]
  exact (BitVec.extractLsb'_append_extractLsb'_eq_extractLsb' rfl).trans BitVec.extractLsb'_eq_self

/-! ### The digits of a delivered output -/

/-- After the invocation a digit position of a sound port holds the character of its bit (R28, R62). -/
theorem read_deliver_digit {a : Instance} (v : Word) (h : a.OutSound) {k : Nat} (hk : k < 64) :
    Memory.read (a.deliver (outputChars a.config v)).out k =
      some (if v.getLsbD (63 - k) then a.config.codeOne else a.config.codeZero) :=
  (read_deliver_of_sound v h k).trans (outputAt_digit _ v hk)

/-- Settles O9: each segment's positions `k` select bit `63 - k`, which is a bit of the segment's field. -/
theorem segmentsRenderTheFields : Obligations.SegmentsRenderTheFields := by
  intro v s hs hb
  have hdigit {k : Nat} (hk : k < 64) := read_deliver_digit v (current_inv hs).outSound hk
  refine ⟨_, execEncode_port v hb, ?_, fun k hlow hhigh => ?_, fun k hlow hhigh => ?_, (fields_append v).symm⟩
  · simp only [signField_eq_one_iff]
    exact hdigit (by omega)
  · rw [hdigit (by omega), exponentField_getLsbD v (by omega), show 52 + (11 - k) = 63 - k by omega]
  · rw [hdigit (by omega), mantissaField_getLsbD v (by omega)]

/-! ### The wires of one lane -/

/-- Character k of an output is its lane's character. -/
theorem outputChars_getD (c : Config) (v : Word) {k : Nat} (h : k < 64) :
    (outputChars c v).getD k 0#8 = if v.getLsbD (63 - k) then c.codeOne else c.codeZero := by
  rw [List.getD_eq_getElem?_getD, outputChars_digit c v h, Option.getD_some, laneCode_eq]

/-- A run of wires inside one lane of the bus is that run of the lane's character (R30). -/
theorem bus_extractLsb' {n : Nat} (cs : List Byte) {k j len : Nat} (hk : k < n) (hj : j + len ≤ 8) :
    (BitVec.ofNat (8 * n) (packBus cs)).extractLsb' (8 * k + j) len = (cs.getD k 0#8).extractLsb' j len := by
  refine BitVec.eq_of_getLsbD_eq fun i hi => ?_
  rw [BitVec.getLsbD_extractLsb', BitVec.getLsbD_extractLsb', Nat.add_assoc, bus_getLsbD cs hk (by omega)]

/-- The two default codes share their upper seven bits and differ in bit 0, which is the digit (R47). -/
theorem defaultCode_bits (b : Bool) :
    (if b then 0x31#8 else 0x30#8).extractLsb' 1 7 = 0b0011000#7 ∧ (if b then 0x31#8 else 0x30#8).getLsbD 0 = b := by
  cases b <;> decide

/-- Settles O8: lane k of the bus is the default code of bit `63 - k`. -/
theorem defaultCodesDriveOneWire : Obligations.DefaultCodesDriveOneWire := by
  intro v s _ hb hzero hone
  refine ⟨_, _, execEncode_port v hb, outBus_deliver s.current v, fun k hk => ?_⟩
  have hlane : k < positions s.current.config := Nat.lt_of_lt_of_le hk (positions_bounds _).1
  have hcode : (outputChars s.current.config v).getD k 0#8 = if v.getLsbD (63 - k) then 0x31#8 else 0x30#8 := by
    rw [outputChars_getD _ v hk, hone, hzero]
  obtain ⟨hupper, hbit⟩ := hcode ▸ defaultCode_bits (v.getLsbD (63 - k))
  exact ⟨(bus_extractLsb' _ hlane (by omega)).trans hupper, (bus_getLsbD _ hlane (by omega)).trans hbit⟩

end Sys2Proof.Machine

/-! ## Proofs: the operand bits and the signed zeros -/

namespace Sys2Proof.Machine

/-! ### One operand bit -/

/-- The bit is set exactly when the quotient by its power of two is odd (R61). -/
theorem getLsbD_iff_div_mod (raw : Word) (i : Nat) : raw.getLsbD i = true ↔ raw.toNat / 2 ^ i % 2 = 1 := by
  rw [← BitVec.testBit_toNat, Nat.testBit_eq_decide_div_mod_eq, decide_eq_true_iff]

/-- The bit is what the logical right shift brings to position 0 (R61). -/
theorem getLsbD_iff_ushiftRight (raw : Word) (i : Nat) :
    raw.getLsbD i = true ↔ (raw >>> i) &&& 1#64 = 1#64 := by
  have hlow : (raw >>> i).getLsbD 0 = raw.getLsbD i := by rw [BitVec.getLsbD_ushiftRight, Nat.add_zero]
  rw [BitVec.and_one_eq_setWidth_ofBool_getLsbD, hlow]
  cases raw.getLsbD i <;> decide

/-- Bit 63 is the most significant bit: it is set in the upper half of the patterns (R61). -/
theorem getLsbD_63_iff (raw : Word) : raw.getLsbD 63 = true ↔ 2 ^ 63 ≤ raw.toNat := by
  rw [show raw.getLsbD 63 = raw.msb from raw.msb_eq_getLsbD_last.symm, BitVec.msb_eq_decide, decide_eq_true_iff]

/-- Settles O5: the mask test is the numbered bit, and each other form of R61 is that bit. -/
theorem bitTestIsTheNumberedBit : Obligations.BitTestIsTheNumberedBit := by
  intro raw
  refine ⟨fun i hi => ?_, ?_, ?_⟩
  · have hbit := bitTest_eq_getLsbD raw (i := i) (by omega)
    exact ⟨hbit, bne_iff_ne, hbit ▸ getLsbD_iff_ushiftRight raw i, hbit ▸ getLsbD_iff_div_mod raw i⟩
  · exact bitTest_eq_getLsbD raw (i := 63) (by omega) ▸ getLsbD_63_iff raw
  · have hquot := getLsbD_iff_div_mod raw 0
    rwa [Nat.pow_zero, Nat.div_one, ← bitTest_eq_getLsbD raw (by omega)] at hquot

/-! ### The digit string of an output -/

/-- The first 64 characters that a host samples after an invocation are the lanes (R28, R64). -/
theorem readChars_deliver_digits (a : Instance) (v : Word) :
    readChars (a.deliver (outputChars a.config v)).out 0 64 = some (render a.config v) := by
  rw [← render_length a.config v]
  refine readChars_eq_some fun k hk => ?_
  have hout : k < (outputChars a.config v).length := by
    rw [outputChars, List.length_append]; exact Nat.lt_add_right _ hk
  rw [deliver_out, read_storeChars_inside _ _ hout]
  exact congrArg some (List.getElem_append_left hk)

/-- The digit codes of an admissible configuration differ (R7). -/
theorem codeZero_ne_codeOne {c : Config} (h : c.admissible = true) : c.codeZero ≠ c.codeOne := by
  rw [Config.admissible, Bool.and_eq_true] at h
  exact bne_iff_ne.mp h.1

/-! ### The signed zeros -/

/-- No bit of +0.0 is set (R58). -/
theorem render_posZero (c : Config) : render c 0x0000000000000000#64 = List.replicate 64 c.codeZero := by
  refine List.eq_replicate_iff.mpr ⟨render_length c _, fun ch hch => ?_⟩
  obtain ⟨k, -, rfl⟩ := List.mem_map.mp hch
  rw [laneCode_eq, BitVec.getLsbD_zero]
  rfl

/-- Bit 63 alone is set in -0.0 (R58). -/
theorem getLsbD_negZero (i : Nat) : (0x8000000000000000#64 : Word).getLsbD i = decide (i = 63) := by
  rw [show (0x8000000000000000#64 : Word) = BitVec.twoPow 64 63 from rfl, BitVec.getLsbD_twoPow]
  simp [eq_comm]

/-- Lane 0 alone shows a one for -0.0 (R58). -/
theorem render_negZero (c : Config) :
    render c 0x8000000000000000#64 = c.codeOne :: List.replicate 63 c.codeZero := by
  have hlane (k : Nat) : laneCode c 0x8000000000000000#64 k = if k = 0 then c.codeOne else c.codeZero := by
    simp [laneCode_eq, getLsbD_negZero, show 63 - k = 63 ↔ k = 0 by omega]
  rw [render, List.range_succ_eq_map, List.map_cons, List.map_map, hlane, if_pos rfl]
  refine congrArg (c.codeOne :: ·) (List.eq_replicate_iff.mpr ⟨by simp, fun ch hch => ?_⟩)
  obtain ⟨k, -, rfl⟩ := List.mem_map.mp hch
  exact (hlane (k + 1)).trans (if_neg k.succ_ne_zero)

/-- Settles O11: the two digit strings begin with different codes, so the ports they are sampled from differ. -/
theorem signedZerosAreDistinct : Obligations.SignedZerosAreDistinct := by
  intro s hs hb
  have hpos := readChars_deliver_digits s.current 0x0000000000000000#64
  have hneg := readChars_deliver_digits s.current 0x8000000000000000#64
  rw [render_posZero] at hpos
  rw [render_negZero] at hneg
  refine ⟨_, _, execEncode_port _ hb, execEncode_port _ hb, hpos, hneg, fun hout => ?_⟩
  rw [← hout, hpos, List.replicate_succ (n := 63)] at hneg
  exact codeZero_ne_codeOne (current_inv hs).admissible (List.cons.inj (Option.some.inj hneg)).1

end Sys2Proof.Machine

/-! ## Proofs: the digit string as 64 lanes and as a numeral -/

namespace Sys2Proof.Machine

/-! ### The two codes of a lane -/

/-- Character k of the digit string is the code of bit `63 - k` (R62). -/
theorem render_getElem? (c : Config) (raw : Word) {k : Nat} (h : k < 64) :
    (render c raw)[k]? = some (if raw.getLsbD (63 - k) then c.codeOne else c.codeZero) := by
  rw [render, List.getElem?_map, List.getElem?_range h, Option.map_some, laneCode_eq]

/-- A digit string has no character but the two codes (R65). -/
theorem mem_render_cases {c : Config} {raw : Word} {ch : Byte} (h : ch ∈ render c raw) :
    ch = c.codeZero ∨ ch = c.codeOne := by
  obtain ⟨k, -, rfl⟩ := List.mem_map.mp h
  exact (ite_eq_or_eq ..).symm

/-- Settles O10: the 64 characters that a host samples are the lanes. -/
theorem digitStringShape : Obligations.DigitStringShape := fun v s _ hb =>
  ⟨_, render s.current.config v, execEncode_port v hb, readChars_deliver_digits s.current v, render_length _ v,
    fun _ hk => render_getElem? _ v hk, fun _ hch => mem_render_cases hch⟩

/-! ### The digits as a numeral -/

/-- The codes of an admissible configuration tell the two bit values apart (R7). -/
theorem digitCode_inj {c : Config} (h : c.admissible = true) {b b' : Bool} :
    (if b then c.codeOne else c.codeZero) = (if b' then c.codeOne else c.codeZero) ↔ b = b' := by
  have hne := codeZero_ne_codeOne h
  cases b <;> cases b' <;> simp [hne, hne.symm]

/-- After the invocation a digit position of a sound port holds `CODE_ONE` exactly when its bit is set (R62). -/
theorem read_deliver_eq_codeOne_iff {a : Instance} (v : Word) (h : a.Inv) {k : Nat} (hk : k < 64) :
    Memory.read (a.deliver (outputChars a.config v)).out k = some a.config.codeOne ↔ v.getLsbD (63 - k) = true := by
  rw [read_deliver_digit v h.outSound hk, Option.some.injEq]
  exact digitCode_inj h.admissible (b' := true)

/-- Two operands leave different characters at a digit position exactly when they differ in its bit (R73). -/
theorem read_deliver_ne_iff {a : Instance} (v w : Word) (h : a.Inv) {k : Nat} (hk : k < 64) :
    Memory.read (a.deliver (outputChars a.config v)).out k ≠ Memory.read (a.deliver (outputChars a.config w)).out k ↔
      v.getLsbD (63 - k) ≠ w.getLsbD (63 - k) := by
  rw [read_deliver_digit v h.outSound hk, read_deliver_digit w h.outSound hk, Ne, Option.some.injEq,
    digitCode_inj h.admissible]

/-- The low n bits of a number are the sum of their powers of two. -/
theorem mod_two_pow_eq_sum_testBit (x n : Nat) :
    x % 2 ^ n = (Finset.range n).sum (fun i => (if x.testBit i then 1 else 0) * 2 ^ i) := by
  induction n with
  | zero => simp [Nat.mod_one]
  | succ n ih =>
    have hbit : (if x.testBit n then 1 else 0) = x / 2 ^ n % 2 :=
      (cond_eq_ite _ 1 0).symm.trans (Nat.toNat_testBit x n)
    rw [Finset.sum_range_succ, ← ih, hbit, Nat.mod_pow_succ, Nat.mul_comm]

/-- An operand is the sum of its bits, the most significant first (R9, R69). -/
theorem toNat_eq_sum_msb_first (v : Word) :
    v.toNat = (Finset.range 64).sum (fun k => (if v.getLsbD (63 - k) then 1 else 0) * 2 ^ (63 - k)) := by
  calc v.toNat
      = v.toNat % 2 ^ 64 := (Nat.mod_eq_of_lt v.isLt).symm
    _ = (Finset.range 64).sum (fun i => (if v.toNat.testBit i then 1 else 0) * 2 ^ i) :=
        mod_two_pow_eq_sum_testBit _ 64
    _ = _ := (Finset.sum_range_reflect _ 64).symm

/-- Different operands differ in some bit, which is the bit of some lane. -/
theorem exists_lane_bit_ne {v w : Word} (h : v ≠ w) : ∃ k, k < 64 ∧ v.getLsbD (63 - k) ≠ w.getLsbD (63 - k) := by
  by_contra! hall
  refine h (BitVec.eq_of_getLsbD_eq fun i hi => ?_)
  have hlane := hall (63 - i) (by omega)
  rwa [show 63 - (63 - i) = i by omega] at hlane

/-- Settles O13: a digit is the bit of its lane, so the digits sum to the operand and differ where the operands do. -/
theorem digitsAreTheNumeral : Obligations.DigitsAreTheNumeral := by
  intro s hs hb
  have hinv := current_inv hs
  refine ⟨fun v => s.current.deliver (outputChars s.current.config v), fun v => execEncode_port v hb,
    fun v => (toNat_eq_sum_msb_first v).trans (Finset.sum_congr rfl fun k hk => ?_), fun v w hvw => ?_⟩
  · simp only [read_deliver_eq_codeOne_iff v hinv (Finset.mem_range.mp hk)]
  · obtain ⟨k, hk, hbit⟩ := exists_lane_bit_ne hvw
    exact ⟨k, hk, (read_deliver_ne_iff v w hinv hk).mpr hbit⟩

end Sys2Proof.Machine

/-! ## Proofs: reading the digits back, and what an output and its step depend on -/

namespace Sys2Proof.Machine

/-! ### The loop of DECODE -/

/-- One more turn of the loop sets its own bit when its digit is a one (R75). -/
theorem readDigits_concat (c : Config) (str : List Byte) (is : List Nat) (i : Nat) :
    readDigits c str (is ++ [i]) =
      if str[63 - i]? = some c.codeOne then readDigits c str is ||| BitVec.twoPow 64 i else readDigits c str is := by
  rw [readDigits, List.foldl_append]
  rfl

/-- The loop sets bit j exactly when it visits j and the digit of j is a one (R75). -/
theorem readDigits_getLsbD_iff (c : Config) (str : List Byte) (is : List Nat) {j : Nat} (hj : j < 64) :
    (readDigits c str is).getLsbD j = true ↔ j ∈ is ∧ str[63 - j]? = some c.codeOne := by
  induction is using List.reverseRecOn with
  | nil => simp [readDigits]
  | append_singleton is i ih =>
    rw [readDigits_concat, List.mem_append, List.mem_singleton, or_and_right, ← ih]
    by_cases hji : j = i
    · subst hji
      by_cases hone : str[63 - j]? = some c.codeOne
      · simp [hone, hj]
      · simp [hone]
    · split <;> simp [hji, Ne.symm hji]

/-- Bit `63 - k` of the whole loop's result is set exactly when digit k is a one. -/
theorem readDigits_lane_iff (c : Config) (str : List Byte) {k : Nat} (hk : k < 64) :
    (readDigits c str (List.range 64)).getLsbD (63 - k) = true ↔ str[k]? = some c.codeOne := by
  rw [readDigits_getLsbD_iff c str _ (by omega), show 63 - (63 - k) = k by omega, List.mem_range]
  exact and_iff_right (by omega)

/-! ### Digit strings -/

/-- What DECODE is defined on (R75). -/
theorem isDigitString_iff (c : Config) (str : List Byte) :
    isDigitString c str = true ↔ str.length = 64 ∧ ∀ ch ∈ str, ch = c.codeZero ∨ ch = c.codeOne := by
  simp [isDigitString]

theorem decodeString_of_digits {c : Config} {str : List Byte} (h : isDigitString c str = true) :
    decodeString c str = some (readDigits c str (List.range 64)) := if_pos h

theorem decodeString_eq_none {c : Config} {str : List Byte} (h : ¬ isDigitString c str = true) :
    decodeString c str = none := if_neg h

/-- The 64 lanes of any operand are a digit string (R65). -/
theorem isDigitString_render (c : Config) (v : Word) : isDigitString c (render c v) = true :=
  (isDigitString_iff c _).mpr ⟨render_length c v, fun _ => mem_render_cases⟩

/-- With differing codes a digit is `CODE_ONE` exactly when its bit is set (R7, R62). -/
theorem render_eq_codeOne_iff {c : Config} (h : c.admissible = true) (v : Word) {k : Nat} (hk : k < 64) :
    (render c v)[k]? = some c.codeOne ↔ v.getLsbD (63 - k) = true := by
  rw [render_getElem? c v hk, Option.some.injEq]
  exact digitCode_inj h (b' := true)

/-- The lanes of what the loop read are the digits it was given. -/
theorem render_readDigits {c : Config} {str : List Byte} (h : isDigitString c str = true) :
    render c (readDigits c str (List.range 64)) = str := by
  obtain ⟨hlen, hcodes⟩ := (isDigitString_iff c str).mp h
  refine List.ext_getElem? fun k => ?_
  by_cases hk : k < 64
  · have hget : str[k]? = some str[k] := List.getElem?_eq_getElem (hlen ▸ hk)
    rw [render_getElem? c _ hk, hget, Option.some.injEq]
    simp only [readDigits_lane_iff c str hk, hget, Option.some.injEq]
    split
    · next hone => exact hone.symm
    · next hone => exact ((hcodes _ (List.getElem_mem _)).resolve_right hone).symm
  · rw [List.getElem?_eq_none (by rw [render_length]; omega), List.getElem?_eq_none (by omega)]

/-- The loop reads an operand back from its lanes. -/
theorem readDigits_render {c : Config} (h : c.admissible = true) (v : Word) :
    readDigits c (render c v) (List.range 64) = v := by
  refine BitVec.eq_of_getLsbD_eq fun i hi => Bool.eq_iff_iff.mpr ?_
  have hbit := (readDigits_lane_iff c (render c v) (k := 63 - i) (by omega)).trans
    (render_eq_codeOne_iff h v (by omega))
  rwa [show 63 - (63 - i) = i by omega] at hbit

/-- DECODE and the lanes are inverse to each other (R75, R76). -/
theorem decodeString_eq_some_iff {c : Config} (h : c.admissible = true) {str : List Byte} {v : Word} :
    decodeString c str = some v ↔ render c v = str := by
  constructor
  · intro hv
    by_cases hd : isDigitString c str = true
    · rw [decodeString_of_digits hd] at hv
      cases hv
      exact render_readDigits hd
    · rw [decodeString_eq_none hd] at hv
      cases hv
  · rintro rfl
    rw [decodeString_of_digits (isDigitString_render c v), readDigits_render h]

/-! ### DECODE of a whole output -/

theorem terminatorLane_present {c : Config} (h : c.termPresent = true) : terminatorLane c = [c.termCode] := if_pos h

theorem terminatorLane_absent {c : Config} (h : ¬ c.termPresent = true) : terminatorLane c = [] := if_neg h

/-- Behind 64 characters DECODE looks for nothing or the terminator lane (R75, log 19). -/
theorem decodeOutput_append (c : Config) {str : List Byte} (extra : List Byte) (h : str.length = 64) :
    decodeOutput c (str ++ extra) =
      if extra = [] ∨ extra = terminatorLane c then decodeString c str else none := by
  rw [decodeOutput, List.drop_left' h, List.take_left' h]

/-- Settles O34: the terminator lane is `[TERM_CODE]` or empty, and the empty ending is ignored in any case. -/
theorem decodeIgnoresOnlyATerminator : Obligations.DecodeIgnoresOnlyATerminator := by
  intro c str extra hlen
  rw [decodeOutput_append c extra hlen]
  refine ⟨fun hnil => if_pos (.inl hnil), fun ht hterm => if_pos (.inr (hterm.trans (terminatorLane_present ht).symm)),
    fun hne hother => if_neg ?_⟩
  rintro (hnil | hlane)
  · exact hne hnil
  · by_cases ht : c.termPresent = true
    · exact hother ht (hlane.trans (terminatorLane_present ht))
    · exact hne (hlane.trans (terminatorLane_absent ht))

/-- DECODE of a whole output is its operand (R76). -/
theorem decodeOutput_outputChars {c : Config} (h : c.admissible = true) (v : Word) :
    decodeOutput c (outputChars c v) = some v := by
  rw [decodeOutput, outputChars_drop, if_pos (.inr rfl), outputChars_take]
  exact (decodeString_eq_some_iff h).mpr rfl

/-- An operand is the sum of the powers of two of its one digits (R69, R75). -/
theorem toNat_eq_sum_digits {c : Config} (h : c.admissible = true) (v : Word) :
    v.toNat = (Finset.range 64).sum
      (fun k => (if (render c v)[k]? = some c.codeOne then 1 else 0) * 2 ^ (63 - k)) := by
  rw [toNat_eq_sum_msb_first]
  refine Finset.sum_congr rfl fun k hk => ?_
  simp only [render_eq_codeOne_iff h v (Finset.mem_range.mp hk)]

/-- Settles O15: `decodeString_eq_some_iff` is both round trips, and a digit string is the lanes of what it decodes to. -/
theorem encodeDecodeBijection : Obligations.EncodeDecodeBijection := by
  intro c h
  refine ⟨fun v => ⟨?_, decodeOutput_outputChars h v⟩, fun str hlen hcodes => ?_, fun str hbad => ?_⟩
  · exact (decodeString_eq_some_iff h).mpr (outputChars_take c v).symm
  · obtain ⟨v, hdec⟩ : ∃ v, decodeString c str = some v :=
      ⟨_, decodeString_of_digits ((isDigitString_iff c str).mpr ⟨hlen, hcodes⟩)⟩
    have hrender := (decodeString_eq_some_iff h).mp hdec
    exact ⟨v, hdec, (outputChars_take c v).trans hrender, hrender ▸ toNat_eq_sum_digits h v⟩
  · refine decodeString_eq_none fun hd => ?_
    obtain ⟨hlen, hcodes⟩ := (isDigitString_iff c str).mp hd
    rcases hbad with hne | ⟨ch, hch, hzero, hone⟩
    · exact hne hlen
    · exact (hcodes ch hch).elim hzero hone

/-- Settles O14: the host samples the output's characters, and DECODE of those is the operand. -/
theorem stepOutputDecodesToOperand : Obligations.StepOutputDecodesToOperand := fun v s hs hb hv =>
  ⟨_, _, (step_driven hv).trans (execEncode_port v hb), readChars_deliver s.current v,
    decodeOutput_outputChars (current_inv hs).admissible v⟩

/-! ### What the output depends on -/

/-- From position 64 on the output does not depend on the operand (R66, R37). -/
theorem outputAt_behind_digits (c : Config) (v w : Word) {k : Nat} (h : 64 ≤ k) : outputAt c v k = outputAt c w k := by
  simp only [outputAt, if_neg (Nat.not_lt.mpr h)]

/-- Settles O12: position `63 - i` is the digit of bit i, and behind the digits the output has no operand bit. -/
theorem bitLocality : Obligations.BitLocality := by
  intro v w s hs hb
  have hinv := current_inv hs
  refine ⟨_, _, execEncode_port v hb, execEncode_port w hb, fun i hi => ?_, fun k hk => ?_⟩
  · have hne := read_deliver_ne_iff v w hinv (k := 63 - i) (by omega)
    rwa [show 63 - (63 - i) = i by omega] at hne
  · rw [read_deliver_of_sound v hinv.outSound, read_deliver_of_sound w hinv.outSound]
    exact outputAt_behind_digits _ v w hk

/-- The port of a served sound instance is settled on its operand, whatever it showed before (R72). -/
theorem served_out {a : Instance} {v : Word} (h : a.Inv) (hv : a.valueI = some v) :
    a.served.out = settledOut a.config v := by
  rw [served_of_driven hv, deliver_out_of_sound v h.outSound]

/-- Settles O21: both steps serve their current instance, and both ports settle on the one operand. -/
theorem outputDependsOnOperandOnly : Obligations.OutputDependsOnOperandOnly := by
  intro v s s' hs hs' hduty hduty' hv hv' hconfig
  refine ⟨_, _, _, _, step_of_hostDuty hduty, step_of_hostDuty hduty', ?_⟩
  rw [served_out (current_inv hs) hv, served_out (current_inv hs') hv', hconfig]

/-! ### When a step completes -/

/-- The host's breach that a refusal is named for (R84, R94, R95). -/
inductive State.Breach (s : State) : Refusal → Prop where
  /-- The operand port carries no pattern (D13, U8). -/
  | undriven (h : s.current.valueI = none) : s.Breach .operandUndriven
  /-- The call's buffer has fewer than L bytes (R94, U2). -/
  | tooShort (b : Buffer) (hb : s.current.buffer = some b) (hsize : b.size < positions s.current.config) :
      s.Breach .bufferTooShort
  /-- Another call in flight has a byte of the call's buffer (R95, U3). -/
  | shared (b : Buffer) (hb : s.current.buffer = some b) (a : Instance) (ha : a ∈ s.waiting) (b' : Buffer)
      (hb' : a.buffer = some b') (hshare : b.ShareByte b') : s.Breach .sharedBuffer

/-- In the port form a driven operand is all that the host owes. -/
theorem hostDuty_port {s : State} (hv : s.current.valueI ≠ none) (hb : s.current.buffer = none) : s.HostDuty :=
  ⟨hv, by simp [hb], by simp [hb]⟩

/-- In the buffer form the host also owes L bytes that no other call in flight claims. -/
theorem hostDuty_buffer {s : State} {b : Buffer} (hv : s.current.valueI ≠ none) (hb : s.current.buffer = some b)
    (hsize : positions s.current.config ≤ b.size) (hclaims : ∀ a ∈ s.waiting, a.claims b = false) : s.HostDuty where
  operand := hv
  bufferSize := by rintro _ h; cases hb.symm.trans h; exact hsize
  ownBuffer := by
    rintro _ h a ha b' hb' hshare
    cases hb.symm.trans h
    exact Bool.false_ne_true ((hclaims a ha).symm.trans ((claims_iff a b).mpr ⟨b', hb', hshare⟩))

/-- Everything a step can come to: the host's duty is done and it completes, or it is refused for a breach. -/
theorem step_cases (s : State) :
    (s.HostDuty ∧ ∃ t, step s = .next t) ∨ ∃ r, s.Breach r ∧ step s = .refused r := by
  cases hv : s.current.valueI with
  | none => exact .inr ⟨_, .undriven hv, step_undriven hv⟩
  | some v =>
    have hdriven : s.current.valueI ≠ none := by simp [hv]
    rw [step_driven hv]
    cases hb : s.current.buffer with
    | none => exact .inl ⟨hostDuty_port hdriven hb, _, execEncode_port v hb⟩
    | some b =>
      rcases execEncode_buffer v hb with ⟨hsize, he⟩ | ⟨_, ⟨a, ha, hclaim⟩, he⟩ | ⟨hsize, hclaims, he⟩
      · exact .inr ⟨_, .tooShort b hb hsize, he⟩
      · obtain ⟨b', hb', hshare⟩ := (claims_iff a b).mp hclaim
        exact .inr ⟨_, .shared b hb a ha b' hb' hshare, he⟩
      · exact .inl ⟨hostDuty_buffer hdriven hb hsize hclaims, _, he⟩

/-- There is no fault for a step to answer (R79). -/
theorem step_ne_fault (s : State) (f : Fault) : step s ≠ .fault f := nomatch f

/-- A step that completes had the host's duty done. -/
theorem hostDuty_of_step_next {s t : State} (h : step s = .next t) : s.HostDuty := by
  rcases step_cases s with ⟨hduty, _⟩ | ⟨r, _, hr⟩
  · exact hduty
  · rw [hr] at h; cases h

/-- A step that is refused has the breach of that name. -/
theorem breach_of_step_refused {s : State} {r : Refusal} (h : step s = .refused r) : s.Breach r := by
  rcases step_cases s with ⟨_, t, ht⟩ | ⟨r', hbreach, hr⟩
  · rw [ht] at h; cases h
  · rw [hr] at h; cases h; exact hbreach

/-- Settles O24: `step_cases` says which step completes and why another is refused, and there is no fault. -/
theorem stepCompletesIffHostDuty : Obligations.StepCompletesIffHostDuty := by
  intro s
  refine ⟨⟨fun ⟨_, h⟩ => hostDuty_of_step_next h, fun hduty => ⟨_, step_of_hostDuty hduty⟩⟩,
    step_ne_fault s, fun r hr => ?_⟩
  cases breach_of_step_refused hr with
  | undriven h => exact .inl ⟨rfl, h⟩
  | tooShort b hb hsize => exact .inr (.inl ⟨rfl, b, hb, hsize⟩)
  | shared b hb a ha b' hb' hshare => exact .inr (.inr ⟨rfl, b, hb, a, ha, b', hb', hshare⟩)

end Sys2Proof.Machine

/-! ## Proofs: what the host's actions keep, lose and cannot cancel -/

namespace Sys2Proof.Machine

/-! ### The invariant through an action of the host -/

/-- Exchanging the current instance keeps the invariant, if the new one is sound and can hold the turn. -/
theorem withCurrent_inv {s : State} {a : Instance} (h : s.Inv) (ha : a.Inv)
    (hturn : s.waiting ≠ [] → a.valueI ≠ none) : State.Inv { s with current := a } where
  memWf := h.memWf
  instancesInv := List.forall_mem_cons.mpr ⟨ha, (List.forall_mem_cons.mp h.instancesInv).2⟩
  waitingDriven := h.waitingDriven
  turnDriven := hturn
  idleNoCall := h.idleNoCall

theorem undrive_inv {a : Instance} (h : a.Inv) (hb : a.buffer = none) : a.undrive.Inv :=
  ⟨h.admissible, .inl rfl, fun hne => absurd hb hne⟩

/-- An instance whose output a power cycle has unsettled is as sound as before (R89). -/
theorem unsettle_inv {a : Instance} (h : a.Inv) : Instance.Inv { a with out := unsettledOut a.config } :=
  ⟨h.admissible, .inl rfl, h.callDriven⟩

/-- An undriven instance of a sound machine has no call in flight. -/
theorem buffer_none_of_undriven {a : Instance} (h : a.Inv) (hv : a.valueI = none) : a.buffer = none :=
  not_not.mp fun hb => h.callDriven hb hv

/-- Bringing a sound, driven instance into flight keeps the invariant. -/
theorem enqueue_inv {s : State} {a : Instance} (h : s.Inv) (ha : a.Inv) (hv : a.valueI ≠ none) :
    (s.enqueue a).Inv where
  memWf := by rw [enqueue_mem]; exact h.memWf
  instancesInv := by
    intro x hx
    rcases List.mem_cons.mp ((enqueue_instances_perm s a).mem_iff.mp hx) with rfl | hx
    · exact ha
    · exact h.instancesInv x hx
  waitingDriven := by
    rcases enqueue_cases s a with ⟨_, he⟩ | ⟨_, he⟩ <;> rw [he]
    · exact h.waitingDriven
    · exact List.forall_mem_append.mpr ⟨h.waitingDriven, List.forall_mem_singleton.mpr hv⟩
  turnDriven := by
    rcases enqueue_cases s a with ⟨_, he⟩ | ⟨hcur, he⟩ <;> rw [he]
    · exact fun _ => hv
    · exact fun _ => hcur
  idleNoCall := by
    rcases enqueue_cases s a with ⟨hcur, he⟩ | ⟨_, he⟩ <;> rw [he]
    · exact List.forall_mem_cons.mpr ⟨buffer_none_of_undriven (current_inv h) hcur, h.idleNoCall⟩
    · exact h.idleNoCall

/-- Taking an idle instance out of the machine keeps the invariant. -/
theorem eraseIdle_inv {s : State} (k : Nat) (h : s.Inv) : State.Inv { s with idle := s.idle.eraseIdx k } where
  memWf := h.memWf
  instancesInv := fun _ hx => h.instancesInv _
    (List.mem_cons.mpr ((List.mem_cons.mp hx).imp_right
      ((List.eraseIdx_sublist s.idle k).append_left s.waiting).mem))
  waitingDriven := h.waitingDriven
  turnDriven := h.turnDriven
  idleNoCall := fun x hx => h.idleNoCall x (List.mem_of_mem_eraseIdx hx)

/-- A host's action on an operand port keeps the invariant if it does so where no call is in flight. -/
theorem unlessInCall_inv {s s' : State} {a : Instance} (h : s.Inv) (h' : a.buffer = none → s'.Inv) :
    (s.unlessInCall a s').Inv := by
  rcases unlessInCall_cases s a s' with ⟨hb, he⟩ | ⟨_, he⟩ <;> rw [he]
  · exact h' hb
  · exact h

/-- A successive invocation on an idle instance keeps the invariant. -/
theorem reuse_inv {s : State} (k : Nat) (v : Word) (b : Option Buffer) (h : s.Inv) :
    ((HostEvent.reuse k v b).apply s).Inv := by
  cases hk : s.idle[k]? with
  | none => simpa only [HostEvent.apply, hk] using h
  | some a =>
    have ha : a.Inv := h.instancesInv a
      (List.mem_cons_of_mem _ (List.mem_append_right _ (List.mem_of_getElem? hk)))
    simp only [HostEvent.apply, hk]
    exact unlessInCall_inv h fun _ =>
      enqueue_inv (eraseIdle_inv k h) (present_inv a v b ha.admissible) (by simp)

/-- Settles O26: each event exchanges the current instance, passes its turn, brings a sound instance into flight, or writes
memory; presenting and undriving do so only where no call is in flight. -/
theorem hostEventKeepsInvariant : Obligations.HostEventKeepsInvariant := by
  intro s e h hadm
  have hcur := current_inv h
  cases e with
  | present v b =>
    exact unlessInCall_inv h fun _ => withCurrent_inv h (present_inv _ v b hcur.admissible) (by simp)
  | undrive => exact unlessInCall_inv h fun hb => finish_inv h (undrive_inv hcur hb) hb
  | invoke c v b => exact enqueue_inv h (present_inv (Instance.fresh c) v b hadm) (by simp)
  | reuse k v b => exact reuse_inv k v b h
  | store x c => exact withMem_inv h (write_wf x c h.memWf)
  | sample | systemReset => exact h
  | powerCycle => exact withCurrent_inv h (unsettle_inv hcur) h.turnDriven

/-! ### A power cycle -/

/-- What an invocation comes to depends on the current instance only through its parameters, its buffer and what it is
once the output is delivered. -/
theorem exec_withCurrent {s : State} {a : Instance} (v : Word) (hc : a.config = s.current.config)
    (hb : a.buffer = s.current.buffer)
    (hd : a.deliver (outputChars a.config v) = s.current.deliver (outputChars s.current.config v)) :
    exec (.encode v) { s with current := a } = exec (.encode v) s := by
  rw [hc] at hd
  cases hbuf : s.current.buffer with
  | none =>
    rw [execEncode_port v hbuf, execEncode_port (s := { s with current := a }) v (hb.trans hbuf), hc, hd]
    rfl
  | some b =>
    simp only [exec, execEncode, hbuf, hb, hc, encodeToBuffer, hd]
    rfl

/-- Delivering an output leaves the same instance whether or not a power cycle has unsettled the port before (R93). -/
theorem deliver_unsettled {a : Instance} (v : Word) (h : a.Inv) :
    Instance.deliver { a with out := unsettledOut a.config } (outputChars a.config v) =
      a.deliver (outputChars a.config v) := by
  rw [deliver_of_sound v h.outSound]
  exact deliver_of_sound v (unsettle_inv h).outSound

/-- The step after a power cycle answers what the step without it answers (R89). -/
theorem step_powerCycle {s : State} (h : s.Inv) : step (HostEvent.powerCycle.apply s) = step s := by
  cases hv : s.current.valueI with
  | none => rw [step_undriven hv, step_undriven (s := HostEvent.powerCycle.apply s) hv]
  | some v =>
    rw [step_driven hv, step_driven (s := HostEvent.powerCycle.apply s) hv]
    exact exec_withCurrent v rfl rfl (deliver_unsettled v (current_inv h))

/-- Settles O31: the port is as sound after a power cycle as before, and a step settles any sound port on its operand. -/
theorem resetAndPowerCycleLoseNothing : Obligations.ResetAndPowerCycleLoseNothing := by
  refine ⟨fun _ => rfl, fun _ h => step_powerCycle h, fun s v h hb hv => ?_⟩
  have hstep : step (HostEvent.powerCycle.apply s) = exec (.encode v) s := (step_powerCycle h).trans (step_driven hv)
  exact ⟨_, hstep.trans (deliver_of_port _ hb ▸ execEncode_port v hb),
    read_deliver_of_sound v (current_inv h).outSound⟩

/-! ### A call in flight -/

theorem enqueue_current_of_driven {s : State} {v : Word} (a : Instance) (h : s.current.valueI = some v) :
    (s.enqueue a).current = s.current := by
  simp [State.enqueue, h]

/-- A host's action on an operand port keeps the turn if it does so where no call is in flight. -/
theorem unlessInCall_current {s s' : State} (a : Instance) (h : s'.current = s.current) :
    (s.unlessInCall a s').current = s.current := by
  rcases unlessInCall_cases s a s' with ⟨_, he⟩ | ⟨_, he⟩ <;> rw [he]
  exact h

/-- A successive invocation on an idle instance does not take the turn from a driven one. -/
theorem reuse_current_of_driven {s : State} {w : Word} (k : Nat) (v : Word) (b : Option Buffer)
    (h : s.current.valueI = some w) : ((HostEvent.reuse k v b).apply s).current = s.current := by
  cases hk : s.idle[k]? with
  | none => simp only [HostEvent.apply, hk]
  | some a =>
    simp only [HostEvent.apply, hk]
    exact unlessInCall_current a (enqueue_current_of_driven (s := { s with idle := s.idle.eraseIdx k }) _ h)

/-- While a call is in flight on the current instance, presenting an operand on it has no effect (log 21). -/
theorem present_of_call {s : State} {b : Buffer} (w : Word) (b' : Option Buffer) (hb : s.current.buffer = some b) :
    (HostEvent.present w b').apply s = s :=
  unlessInCall_busy _ _ hb

/-- While a call is in flight on the current instance, undriving it has no effect (log 21). -/
theorem undrive_of_call {s : State} {b : Buffer} (hb : s.current.buffer = some b) : HostEvent.undrive.apply s = s :=
  unlessInCall_busy _ _ hb

/-- A call in flight keeps the turn through every event, and all of its instance but what the port shows. -/
theorem hostEvent_current_of_call {s : State} {v : Word} {b : Buffer} (e : HostEvent)
    (hb : s.current.buffer = some b) (hv : s.current.valueI = some v) :
    ∃ out, (e.apply s).current = { s.current with out := out } := by
  cases e with
  | present w b' => exact ⟨_, congrArg State.current (present_of_call w b' hb)⟩
  | undrive => exact ⟨_, congrArg State.current (undrive_of_call hb)⟩
  | invoke c w b' => exact ⟨_, enqueue_current_of_driven _ hv⟩
  | reuse k w b' => exact ⟨_, reuse_current_of_driven k w b' hv⟩
  | store | sample | systemReset | powerCycle => exact ⟨_, rfl⟩

/-- While a call is in flight on the current instance, every other invocation in flight stays waiting. -/
theorem mem_waiting_of_call {s : State} {a : Instance} {b : Buffer} (e : HostEvent) (hb : s.current.buffer = some b)
    (ha : a ∈ s.waiting) : a ∈ (e.apply s).waiting := by
  rcases waitingInvocationsStayInFlight s e a ha with hw | ⟨_, rfl⟩
  · exact hw
  · rwa [undrive_of_call hb]

/-- The step of a call whose host has done its duty completes and leaves its output in its buffer (R36). -/
theorem step_call_of_hostDuty {s : State} {v : Word} {b : Buffer} (h : s.HostDuty) (hb : s.current.buffer = some b)
    (hv : s.current.valueI = some v) :
    ∃ t, step s = .next t ∧
      ∀ k, k < positions s.current.config → Memory.read t.mem (b.base + k) = outputAt s.current.config v k := by
  refine ⟨_, step_of_hostDuty h, fun k hk => ?_⟩
  rw [finish_mem, storeOutput_call _ hv hb, read_storeOutput_position _ v _ _ hk]

/-- Settles O35: no event changes more of the call's instance than what its port shows, and the call's step needs no more
than the host's duty. -/
theorem callInFlightIsNotCancelled : Obligations.CallInFlightIsNotCancelled := by
  intro s e v b hb hv
  obtain ⟨out, hcur⟩ := hostEvent_current_of_call e hb hv
  have hb' : (e.apply s).current.buffer = some b := by rw [hcur]; exact hb
  have hv' : (e.apply s).current.valueI = some v := by rw [hcur]; exact hv
  have hc' : (e.apply s).current.config = s.current.config := by rw [hcur]
  refine ⟨hb', hv', hc', fun _ ha => mem_waiting_of_call e hb ha, fun w b' => present_of_call w b' hb,
    undrive_of_call hb, fun hduty => ?_⟩
  exact hc' ▸ step_call_of_hostDuty hduty hb' hv'

end Sys2Proof.Machine

/-! ## Proofs: the hazards of the buffer form, and the output before the step -/

namespace Sys2Proof.Machine

/-! ### The refusals of the buffer form -/

/-- The buffer form is refused on a buffer shorter than L, whoever else claims it (R94). -/
theorem execEncode_shortBuffer {s : State} (v : Word) {b : Buffer} (hb : s.current.buffer = some b)
    (hsize : b.size < positions s.current.config) : exec (.encode v) s = .refused .bufferTooShort := by
  rcases execEncode_buffer v hb with ⟨_, he⟩ | ⟨hlong, _, _⟩ | ⟨hlong, _, _⟩
  · exact he
  · exact absurd hsize hlong.not_gt
  · exact absurd hsize hlong.not_gt

/-- The buffer form is refused on a buffer of L bytes that another invocation in flight claims (R95). -/
theorem execEncode_claimedBuffer {s : State} (v : Word) {b : Buffer} {a : Instance} (hb : s.current.buffer = some b)
    (hsize : positions s.current.config ≤ b.size) (ha : a ∈ s.waiting) (hclaim : a.claims b = true) :
    exec (.encode v) s = .refused .sharedBuffer := by
  rcases execEncode_buffer v hb with ⟨hshort, _⟩ | ⟨_, _, he⟩ | ⟨_, hfree, _⟩
  · exact absurd hshort hsize.not_gt
  · exact he
  · exact absurd hclaim (by simp [hfree a ha])

/-- `L` as the two buffer sizes that R94 names. -/
theorem positions_eq_ite (c : Config) : positions c = if c.termPresent then 65 else 64 := by
  unfold positions
  split <;> rfl

/-- Settles O19: an instance whose buffer has a byte of this one claims it; the port form looks at no buffer. -/
theorem sharedBufferRefused : Obligations.SharedBufferRefused := by
  refine ⟨fun v s b hb hsize ⟨a, ha, b', hb', hshare⟩ => ?_, fun v s hb => ⟨_, execEncode_port v hb⟩⟩
  exact execEncode_claimedBuffer v hb hsize ha ((claims_iff a b).mpr ⟨b', hb', hshare⟩)

/-- Settles O18: the size is looked at before anything else, and it is L that it is held to. -/
theorem shortBufferRefused : Obligations.ShortBufferRefused := fun v s _ hb hsize =>
  execEncode_shortBuffer v hb (positions_eq_ite s.current.config ▸ hsize)

/-! ### The output between a presented operand and its step -/

/-- Where no call is in flight, presenting an operand unsettles the current instance's port (R93). -/
theorem present_current_out {s : State} (v : Word) (b : Option Buffer) (hb : s.current.buffer = none) :
    ((HostEvent.present v b).apply s).current.out = unsettledOut s.current.config := by
  rw [HostEvent.apply, unlessInCall_free _ _ hb, present_out]

/-- Settles O30: a presented operand leaves the port unsettled, and an unsettled port shows its terminator alone. -/
theorem digitsUnspecifiedUntilTheStep : Obligations.DigitsUnspecifiedUntilTheStep := fun s v b k hb => by
  rw [present_current_out v b hb, read_unsettledOut]

end Sys2Proof.Machine
